-- ==== Sys2Proof/Word.lean ====
section
/-! DEFINITION. The byte and the register word (spec/00_scope.md R9, R10; spec/10_state.md R22). -/

namespace Sys2Proof

/-- A byte: an 8-bit unsigned value (R10). -/
abbrev Byte := BitVec 8

/-- A register or a command word: 32 bits (R22, R80). -/
abbrev Word := BitVec 32

end Sys2Proof
end

