-- ==== Sys2Proof/Config.lean ====
section
/-! DEFINITION. What an instance of XCORE fixes: the constant tables and the hardware parameters
(spec/00_scope.md R6, R7; spec/10_state.md R40 to R46), and the two families of free bytes that the spec
leaves unspecified (spec/20_memory.md R76, spec/70_reset_and_hazards.md R242). -/

namespace Sys2Proof

/-- The constant tables of R6, in the shapes of R40 to R46. They are arguments of every pure function that
uses them. Their values are not in the source (U3), so no value is fixed here. -/
structure Tables where
  /-- `SBOX_C`, the cipher forward S-box (R40). -/
  sboxC : Byte → Byte
  /-- `SBOX_CI`, the cipher inverse S-box (R40). -/
  sboxCI : Byte → Byte
  /-- `SBOX_H`, the hash forward S-box (R41). -/
  sboxH : Byte → Byte
  /-- `MIX_CS`, the cipher spread matrix, row first (R42, R10). -/
  mixCS : Fin 4 → Fin 4 → Byte
  /-- `MIX_CF`, the cipher fold matrix (R42). -/
  mixCF : Fin 4 → Fin 4 → Byte
  /-- `MIX_HS`, the hash spread matrix (R43). -/
  mixHS : Fin 8 → Fin 8 → Byte
  /-- `MOD_C`, the cipher field modulus (R44). -/
  modC : Byte
  /-- `MOD_H`, the hash field modulus (R44). -/
  modH : Byte
  /-- `RCON_C(j)`; only the indices 1 to 59 are ever read (R45). -/
  rconC : Nat → Byte
  /-- `RCON_H(r)`, 8 bytes; only the indices 1 to 10 are ever read (R45). -/
  rconH : Nat → Vector Byte 8
  /-- `IV_H`, the hash's initial chaining value (R46). -/
  ivH : Vector Byte 64
  deriving Inhabited

/-- The tables of the instance at hand. FREE: it has no body, so a claim about the machine holds for every
instance of the parameters (R6, U3; notes/assumptions/1.md). -/
opaque Config.tables : Tables

/-- What the MEM byte at an address holds after the power-on with this number, until something writes it.
FREE: a draw under no law, one per power-on and address (R76, R244, U1; notes/assumptions/2.md). -/
opaque Config.powerOnByte : (powerOn : Nat) → (addr : Nat) → Byte

/-- What a reset that aborts a running command leaves in a byte of that command's output region: any byte,
one draw per abort and address (R242, U2). FREE (notes/assumptions/3.md). -/
opaque Config.abortByte : (abort : Nat) → (addr : Nat) → Byte

/-- `MEM_SIZE`, the bytes of local memory, at R7's default (notes/assumptions/4.md). -/
def Config.memSize : Nat := 65536

/-- `KEY_MAX`, the largest cipher key in bytes, at R7's default (notes/assumptions/4.md). -/
def Config.keyMax : Nat := 32

/-- What the ID register always reads: 'X', 'C', 'O' and version 1 (R21). -/
def Config.idValue : Word := 0x58434F01

end Sys2Proof
end

