-- ==== Sys2Proof/Syntax.lean ====
section
/-! DEFINITION. The commands of XCORE as syntax: one constructor per row of spec/opcode_table.json, with the
command-word fields the row uses (spec/30_encoding.md R81 to R86), the opcodes by name, and the assembler's
operands and pseudo-instructions (R90, R91). -/

namespace Sys2Proof

/-- ORD: the order of the state (R82). -/
inductive Order where
  /-- `4`: a 16-byte state. -/
  | four
  /-- `8`: a 64-byte state. -/
  | eight
  deriving DecidableEq, Repr

/-- The side `O` of an order-`O` state (R82). -/
def Order.side : Order → Nat
  | .four => 4
  | .eight => 8

/-- DIR: the direction of a rotation (R83). -/
inductive Dir where
  /-- `FWD`, `+1`. -/
  | fwd
  /-- `BWD`, `-1`. -/
  | bwd
  deriving DecidableEq, Repr

/-- TSEL of SUBST (R84). -/
inductive SubstTable where
  /-- `C`: `SBOX_C`. -/
  | c
  /-- `CI`: `SBOX_CI`. -/
  | ci
  /-- `H`: `SBOX_H`. -/
  | h
  deriving DecidableEq, Repr

/-- TSEL of MIXCOL (R84). -/
inductive MixTable where
  /-- `CS`: `MIX_CS`, order 4. -/
  | cs
  /-- `CF`: `MIX_CF`, order 4. -/
  | cf
  /-- `HS`: `MIX_HS`, order 8. -/
  | hs
  deriving DecidableEq, Repr

/-- The order of a mix matrix (R84). -/
def MixTable.order : MixTable → Order
  | .cs => .four
  | .cf => .four
  | .hs => .eight

/-- The seventeen commands (R86), each with the fields of the command word it uses. -/
inductive Instr where
  /-- NOP (R110). -/
  | nop
  /-- GFMUL `#modulus` (R111). -/
  | gfmul (modulus : Byte)
  /-- SUBST `table` (R112). -/
  | subst (table : SubstTable)
  /-- ROTROW `#amount, dir` (R113). -/
  | rotrow (amount : Byte) (dir : Dir)
  /-- SHROWS `order, dir` (R114). -/
  | shrows (order : Order) (dir : Dir)
  /-- MIXCOL `order, table, #modulus` (R115). -/
  | mixcol (order : Order) (table : MixTable) (modulus : Byte)
  /-- ADDB (R116). -/
  | addb
  /-- ADDBT (R117). -/
  | addbt
  /-- XKEYC (R150). -/
  | xkeyc
  /-- XKEYH (R151). -/
  | xkeyh
  /-- XAEENCR (R170). -/
  | xaeencr
  /-- XAEDECR (R171). -/
  | xaedecr
  /-- XAEENC (R172). -/
  | xaeenc
  /-- XAEDEC (R173). -/
  | xaedec
  /-- XWHRND (R200). -/
  | xwhrnd
  /-- XWHCMP (R201). -/
  | xwhcmp
  /-- XWHHASH (R202). -/
  | xwhhash
  deriving DecidableEq, Repr

/-- The allocated opcodes by mnemonic (R86). -/
inductive Opcode where
  | nop | gfmul | subst | rotrow | shrows | mixcol | addb | addbt
  | xkeyc | xkeyh | xaeencr | xaedecr | xaeenc | xaedec | xwhrnd | xwhcmp | xwhhash
  deriving DecidableEq, Repr

/-- The opcode of a command. -/
def Instr.opcode : Instr → Opcode
  | .nop => .nop
  | .gfmul _ => .gfmul
  | .subst _ => .subst
  | .rotrow _ _ => .rotrow
  | .shrows _ _ => .shrows
  | .mixcol _ _ _ => .mixcol
  | .addb => .addb
  | .addbt => .addbt
  | .xkeyc => .xkeyc
  | .xkeyh => .xkeyh
  | .xaeencr => .xaeencr
  | .xaedecr => .xaedecr
  | .xaeenc => .xaeenc
  | .xaedec => .xaedec
  | .xwhrnd => .xwhrnd
  | .xwhcmp => .xwhcmp
  | .xwhhash => .xwhhash

/-- One operand of an assembler line (R90). -/
inductive AsmOperand where
  /-- `4` or `8`. -/
  | order (o : Order)
  /-- `FWD` or `BWD`. -/
  | dir (d : Dir)
  /-- `C`, `CI` or `H`. -/
  | substTable (t : SubstTable)
  /-- `CS`, `CF` or `HS`. -/
  | mixTable (t : MixTable)
  /-- `#n`. -/
  | imm (n : Nat)
  deriving DecidableEq, Repr

/-- The pseudo-instructions (R91). -/
inductive Pseudo where
  | mixc | mixci | mixh | rotw | shr4 | shr4i | shr8
  deriving DecidableEq, Repr

end Sys2Proof
end

