-- ==== Sys2Proof/WellFormed.lean ====
section
/-! DEFINITION. Which commands have a command word that decodes (spec/30_encoding.md R84, R88, R90). The types of the
fields exclude every other reserved choice: TSEL = 3 has no constructor, and an immediate is a byte. -/

namespace Sys2Proof

/-- A MIXCOL is well formed when its matrix has the order it names; every other command is well formed
(R88 check 3, R90: "An assembler refuses a `MIXCOL` whose order and matrix disagree"). -/
def Instr.wellFormed : Instr → Bool
  | .mixcol o t _ => t.order == o
  | .nop | .gfmul _ | .subst _ | .rotrow _ _ | .shrows _ _ | .addb | .addbt | .xkeyc | .xkeyh
  | .xaeencr | .xaedecr | .xaeenc | .xaedec | .xwhrnd | .xwhcmp | .xwhhash => true

end Sys2Proof
end

