-- ==== Sys2Proof/Decode.lean ====
section
/-! DEFINITION. The decoder of a command word, total and refusing by name, then the encoder, both from the tables of
spec/30_encoding.md (R81 to R88), and the assembler of R90 and R91. -/

namespace Sys2Proof

/-! ### The encoding tables -/

/-- The OPC value of each opcode (R86). -/
def Opcode.byte : Opcode → Byte
  | .nop => 0x00
  | .gfmul => 0x01
  | .subst => 0x02
  | .rotrow => 0x03
  | .shrows => 0x04
  | .mixcol => 0x05
  | .addb => 0x06
  | .addbt => 0x07
  | .xkeyc => 0x10
  | .xkeyh => 0x11
  | .xaeencr => 0x20
  | .xaedecr => 0x21
  | .xaeenc => 0x22
  | .xaedec => 0x23
  | .xwhrnd => 0x30
  | .xwhcmp => 0x31
  | .xwhhash => 0x32

/-- `MBZ(opc)`, the bits that must be zero (R87). -/
def Opcode.mbz : Opcode → Word
  | .gfmul => 0xFF00FF00
  | .subst => 0xFFFFF300
  | .rotrow => 0xFF00FD00
  | .shrows => 0xFFFFFC00
  | .mixcol => 0xFF00F200
  | .nop | .addb | .addbt | .xkeyc | .xkeyh | .xaeencr | .xaedecr | .xaeenc | .xaedec
  | .xwhrnd | .xwhcmp | .xwhhash => 0xFFFFFF00

/-- The rows of R86. -/
def Opcode.all : List Opcode :=
  [.nop, .gfmul, .subst, .rotrow, .shrows, .mixcol, .addb, .addbt, .xkeyc, .xkeyh,
   .xaeencr, .xaedecr, .xaeenc, .xaedec, .xwhrnd, .xwhcmp, .xwhhash]

/-- The opcode with this OPC value; `none` for an unallocated value (R86, R93). -/
def Opcode.ofByte (b : Byte) : Option Opcode :=
  Opcode.all.find? fun op => op.byte == b

/-- The ORD bit (R82). -/
def Order.code : Order → BitVec 1
  | .four => 0
  | .eight => 1

/-- The order an ORD bit selects (R82). -/
def Order.ofCode (b : BitVec 1) : Order := if b = 0 then .four else .eight

/-- The DIR bit (R83). -/
def Dir.code : Dir → BitVec 1
  | .fwd => 0
  | .bwd => 1

/-- The direction a DIR bit selects (R83). -/
def Dir.ofCode (b : BitVec 1) : Dir := if b = 0 then .fwd else .bwd

/-- The TSEL value of a SUBST table (R84). -/
def SubstTable.code : SubstTable → BitVec 2
  | .c => 0
  | .ci => 1
  | .h => 2

/-- The table a SUBST's TSEL selects; 3 is reserved (R84). -/
def SubstTable.ofCode (t : BitVec 2) : Option SubstTable :=
  if t = 0 then some .c else if t = 1 then some .ci else if t = 2 then some .h else none

/-- The TSEL value of a MIXCOL matrix (R84). -/
def MixTable.code : MixTable → BitVec 2
  | .cs => 0
  | .cf => 1
  | .hs => 2

/-- The matrix a MIXCOL's TSEL selects; 3 is reserved (R84). -/
def MixTable.ofCode (t : BitVec 2) : Option MixTable :=
  if t = 0 then some .cs else if t = 1 then some .cf else if t = 2 then some .hs else none

/-! ### The fields of a word (R81) -/

/-- `OPC`, bits [7:0]. -/
def fieldOpc (c : Word) : Byte := c.extractLsb' 0 8

/-- `ORD`, bit [8]. -/
def fieldOrd (c : Word) : BitVec 1 := c.extractLsb' 8 1

/-- `DIR`, bit [9]. -/
def fieldDir (c : Word) : BitVec 1 := c.extractLsb' 9 1

/-- `TSEL`, bits [11:10]. -/
def fieldTsel (c : Word) : BitVec 2 := c.extractLsb' 10 2

/-- `IMM8`, bits [23:16]. -/
def fieldImm8 (c : Word) : Byte := c.extractLsb' 16 8

/-! ### The decoder -/

/-- Why a word is no command (R88); `60_exceptions.md` R211 gives each its error code. -/
inductive DecodeError where
  /-- OPC is unallocated: code 1. -/
  | illegalOpcode
  /-- A must-be-zero bit is set: code 2. -/
  | reservedField
  /-- A reserved TSEL, or a MIXCOL whose matrix has another order: code 3. -/
  | badSelect
  deriving DecidableEq, Repr

/-- The fields of a word whose opcode and must-be-zero bits are right (R81 to R85, and check 3 of R88). -/
def decodeFields (op : Opcode) (c : Word) : Except DecodeError Instr :=
  match op with
  | .nop => .ok .nop
  | .gfmul => .ok (.gfmul (fieldImm8 c))
  | .subst =>
    match SubstTable.ofCode (fieldTsel c) with
    | some t => .ok (.subst t)
    | none => .error .badSelect
  | .rotrow => .ok (.rotrow (fieldImm8 c) (Dir.ofCode (fieldDir c)))
  | .shrows => .ok (.shrows (Order.ofCode (fieldOrd c)) (Dir.ofCode (fieldDir c)))
  | .mixcol =>
    match MixTable.ofCode (fieldTsel c) with
    | some t =>
      if t.order = Order.ofCode (fieldOrd c) then
        .ok (.mixcol (Order.ofCode (fieldOrd c)) t (fieldImm8 c))
      else .error .badSelect
    | none => .error .badSelect
  | .addb => .ok .addb
  | .addbt => .ok .addbt
  | .xkeyc => .ok .xkeyc
  | .xkeyh => .ok .xkeyh
  | .xaeencr => .ok .xaeencr
  | .xaedecr => .ok .xaedecr
  | .xaeenc => .ok .xaeenc
  | .xaedec => .ok .xaedec
  | .xwhrnd => .ok .xwhrnd
  | .xwhcmp => .ok .xwhcmp
  | .xwhhash => .ok .xwhhash

/-- Decode of a latched word, the three checks in R88's order; the first that fails names the error. -/
def decode (c : Word) : Except DecodeError Instr :=
  match Opcode.ofByte (fieldOpc c) with
  | none => .error .illegalOpcode
  | some op => if c &&& op.mbz = 0 then decodeFields op c else .error .reservedField

/-- The command the decoder reads from a table row's word. A command is one 32-bit register value (R80, R89), so
there are no bytes to lay out: the bits above `nbits` are zero and the value is decoded. -/
def decodeTableWord (nbits w : Nat) : Option Instr :=
  match decode (BitVec.ofNat 32 (w % 2 ^ nbits)) with
  | .ok i => some i
  | .error _ => none

/-! ### The encoder -/

/-- A field of the command word at its place (R81). -/
def place {n : Nat} (v : BitVec n) (lsb : Nat) : Word := v.setWidth 32 <<< lsb

/-- The command word of a command (R90's encoding column). -/
def encode : Instr → Word
  | .nop => 0x00000000
  | .gfmul m => place m 16 ||| 0x01
  | .subst t => place t.code 10 ||| 0x02
  | .rotrow k d => place k 16 ||| place d.code 9 ||| 0x03
  | .shrows o d => place d.code 9 ||| place o.code 8 ||| 0x04
  | .mixcol o t m => place m 16 ||| place t.code 10 ||| place o.code 8 ||| 0x05
  | .addb => 0x00000006
  | .addbt => 0x00000007
  | .xkeyc => 0x00000010
  | .xkeyh => 0x00000011
  | .xaeencr => 0x00000020
  | .xaedecr => 0x00000021
  | .xaeenc => 0x00000022
  | .xaedec => 0x00000023
  | .xwhrnd => 0x00000030
  | .xwhcmp => 0x00000031
  | .xwhhash => 0x00000032

/-! ### The assembler (R90, R91) -/

/-- `#n` as IMM8; an assembler refuses an `n` outside 0 to 255 (R90). -/
def assembleImm (n : Nat) : Option Byte := if n < 256 then some (BitVec.ofNat 8 n) else none

/-- A mnemonic with its operands, in the order of R90's syntax column. Any other operand list is refused, and so are
a MIXCOL whose order and matrix disagree and a `#n` outside 0 to 255. -/
def assemble (op : Opcode) (operands : List AsmOperand) : Option Instr :=
  match op, operands with
  | .nop, [] => some .nop
  | .gfmul, [.imm m] => (assembleImm m).map .gfmul
  | .subst, [.substTable t] => some (.subst t)
  | .rotrow, [.imm k, .dir d] => (assembleImm k).map fun k => .rotrow k d
  | .shrows, [.order o, .dir d] => some (.shrows o d)
  | .mixcol, [.order o, .mixTable t, .imm m] =>
    if t.order = o then (assembleImm m).map fun m => .mixcol o t m else none
  | .addb, [] => some .addb
  | .addbt, [] => some .addbt
  | .xkeyc, [] => some .xkeyc
  | .xkeyh, [] => some .xkeyh
  | .xaeencr, [] => some .xaeencr
  | .xaedecr, [] => some .xaedecr
  | .xaeenc, [] => some .xaeenc
  | .xaedec, [] => some .xaedec
  | .xwhrnd, [] => some .xwhrnd
  | .xwhcmp, [] => some .xwhcmp
  | .xwhhash, [] => some .xwhhash
  | _, _ => none

/-- The command a pseudo-instruction stands for, with the configured modulus bytes (R91). -/
def Pseudo.expand (T : Tables) : Pseudo → Instr
  | .mixc => .mixcol .four .cs T.modC
  | .mixci => .mixcol .four .cf T.modC
  | .mixh => .mixcol .eight .hs T.modH
  | .rotw => .rotrow 1 .fwd
  | .shr4 => .shrows .four .fwd
  | .shr4i => .shrows .four .bwd
  | .shr8 => .shrows .eight .fwd

end Sys2Proof
end

