-- ==== Sys2Proof/Machine/State.lean ====
section
/-! DEFINITION. The whole state of XCORE (spec/10_state.md R49), what its two agents may do next (spec/00_scope.md R15),
why a step can stop, and the state after reset (R48, spec/70_reset_and_hazards.md R241, R244). -/

namespace Sys2Proof.Machine

/-- The copy of the command word and the argument registers that a launch latches (R39, R94). -/
structure Snapshot where
  cmd : Word
  src : Word
  dst : Word
  len : Word
  key : Word
  klen : Word
  opa : Word
  opb : Word
  deriving DecidableEq, Repr

/-- The registers by name (R22). -/
inductive Reg where
  | id | cmd | status | ctrl | src | dst | len | key | klen | opa | opb | result | outlen
  deriving DecidableEq, Repr

/-- The width of a host access (R63, R64). -/
inductive AccessSize where
  /-- 8 bits. -/
  | byte
  /-- 16 bits. -/
  | half
  /-- 32 bits. -/
  | word
  deriving DecidableEq, Repr

/-- What a host access does at its address. -/
inductive BusOp where
  /-- A read. -/
  | read
  /-- A write of the low bits of `v`, as many as the access is wide. -/
  | write (v : Word)
  deriving DecidableEq, Repr

/-- One host access, at an offset from `BASE` inside XCORE's window 0x00000 to 0x1FFFF (R62). -/
structure BusAccess where
  offset : BitVec 17
  size : AccessSize
  op : BusOp
  deriving DecidableEq, Repr

/-- What the host gets back for an access. -/
inductive BusResponse where
  /-- OKAY, with the value read, zero-extended to 32 bits. -/
  | data (v : Word)
  /-- OKAY, for a write. -/
  | okay
  /-- The bus-error response (R62, R63, R64, R218). -/
  | busError
  deriving DecidableEq, Repr

/-- One move of one agent, or of the platform. -/
inductive Move where
  /-- The host's next access, in its own program order (R15, R70). -/
  | access (a : BusAccess)
  /-- The engine's turn: its completion step if one is enabled (R15, R95, R253). -/
  | engine
  /-- The platform asserts the reset input (R240). -/
  | hardReset
  /-- The platform powers XCORE on again: a hardware reset that also leaves every MEM byte unspecified (R240, R244). -/
  | powerOn
  deriving DecidableEq, Repr

/-- The written bytes of MEM: address and value, addresses strictly rising. An address with no entry has had no write
since the last power-on (R60, R76). -/
abbrev Memory := List Host.Cell

/-- The state of XCORE (R49), then four fields of the model's own. -/
structure State where
  /-- CMD: the last accepted command word (R23). -/
  cmd : Word
  /-- SRC (R33). -/
  src : Word
  /-- DST (R33). -/
  dst : Word
  /-- LEN (R34). -/
  len : Word
  /-- KEY (R33). -/
  key : Word
  /-- KLEN (R34). -/
  klen : Word
  /-- OPA (R35). -/
  opa : Word
  /-- OPB (R35). -/
  opb : Word
  /-- RESULT (R36). -/
  result : Word
  /-- OUTLEN (R37). -/
  outlen : Word
  /-- CTRL.IE (R31). -/
  ie : Bool
  /-- STATUS.BUSY (R24). -/
  busy : Bool
  /-- STATUS.DONE (R25). -/
  done : Bool
  /-- STATUS.ERR (R26). -/
  err : Bool
  /-- STATUS.DROP (R27). -/
  drop : Bool
  /-- STATUS.LOCKV (R28). -/
  lockv : Bool
  /-- STATUS.ERRCODE (R29). -/
  errcode : Byte
  /-- The launch snapshot, read only while BUSY = 1 (R39). -/
  snapshot : Snapshot
  /-- MEM (R60). -/
  mem : Memory
  /-- The model's own: the number of the last power-on, which picks the free bytes of unwritten MEM. -/
  powerOns : Nat
  /-- The model's own: how many resets have aborted a command with an output region, which picks the next free bytes. -/
  aborts : Nat
  /-- The model's own: the moves to come, first move first. -/
  agenda : List Move
  /-- The model's own: what the host got for its accesses so far, newest first. -/
  responses : List BusResponse
  deriving DecidableEq, Repr

/-- Why the machine stops. XCORE has no such reason: a command that fails its checks completes with an error (R210), a
bad host access gets a response (R218), and an unwritten byte is a free value. So there is no constructor, and nothing
raises a fault. -/
inductive Fault where
  deriving DecidableEq, Repr

/-- Why an instruction has no meaning. -/
inductive Refusal where
  /-- Raised by an arm of `exec` for a mnemonic that has no meaning yet (safe: the machine stops). No arm raises it:
  every command has its meaning. -/
  | notModelled (mnemonic : String)
  deriving DecidableEq, Repr

/-- The snapshot of a machine that has launched nothing (notes/assumptions/5.md). -/
def Snapshot.empty : Snapshot :=
  { cmd := 0, src := 0, dst := 0, len := 0, key := 0, klen := 0, opa := 0, opb := 0 }

/-- The machine right after power-on: every register at its reset value, no MEM byte written, and nothing to come
(R48, R241, R244; the model's own fields: notes/assumptions/6.md). -/
def State.reset : State where
  cmd := 0
  src := 0
  dst := 0
  len := 0
  key := 0
  klen := 0
  opa := 0
  opb := 0
  result := 0
  outlen := 0
  ie := false
  busy := false
  done := false
  err := false
  drop := false
  lockv := false
  errcode := 0
  snapshot := Snapshot.empty
  mem := []
  powerOns := 0
  aborts := 0
  agenda := []
  responses := []

end Sys2Proof.Machine
end

