-- ==== Sys2Proof/Machine/Ops.lean ====
section
/-! DEFINITION. The named operations over MEM and the registers: reading and writing bytes (spec/20_memory.md R60 to R69),
the launch of a command (spec/30_encoding.md R94) and its two ways to complete, with success or with an error
(R95, spec/60_exceptions.md R210, R214, R215). -/

namespace Sys2Proof.Machine

/-! ### MEM -/

/-- The byte written at an address; `none` where nothing has been written since power-on (R76). -/
def Memory.lookup : Memory → Nat → Option Byte
  | [], _ => none
  | (k, b) :: m, a => if k = a then some b else Memory.lookup m a

/-- Write one byte, keeping the addresses in rising order. -/
def Memory.write : Memory → Nat → Byte → Memory
  | [], a, b => [(a, b)]
  | (k, c) :: m, a, b =>
    if a < k then (a, b) :: (k, c) :: m
    else if a = k then (a, b) :: m
    else (k, c) :: Memory.write m a b

/-- `MemWrite`: a byte sequence from `a` upwards, in address order (R11, R61, R68). -/
def Memory.writeBytes : Memory → Nat → List Byte → Memory
  | m, _, [] => m
  | m, a, b :: bs => Memory.writeBytes (Memory.write m a b) (a + 1) bs

/-- Every listed address is at least `lo`, below `MEM_SIZE`, and they rise strictly. -/
def Memory.wfFrom : Nat → Memory → Bool
  | _, [] => true
  | lo, (k, _) :: m => decide (lo ≤ k) && decide (k < Config.memSize) && Memory.wfFrom (k + 1) m

/-- The canonical form: addresses strictly rising, all of them in MEM (R60). -/
def Memory.wf (m : Memory) : Bool := Memory.wfFrom 0 m

/-- The MEM byte at an address: the byte written there, else the free byte of the last power-on (R76, R69; U1). -/
def State.byteAt (s : State) (a : Nat) : Byte :=
  (Memory.lookup s.mem a).getD (Config.powerOnByte s.powerOns a)

/-- `MemRead(a, n)`: the bytes at `a` to `a + n - 1` (R11, R61). -/
def State.readBytes (s : State) (a n : Nat) : List Byte :=
  (List.range n).map fun i => s.byteAt (a + i)

/-! ### Launch -/

/-- The current register values beside the command word `v`, as a launch latches them (R94). -/
def State.takeSnapshot (s : State) (v : Word) : Snapshot :=
  { cmd := v, src := s.src, dst := s.dst, len := s.len, key := s.key, klen := s.klen, opa := s.opa, opb := s.opb }

/-- Launch the word `v` (R94). -/
def State.launch (s : State) (v : Word) : State :=
  { s with cmd := v, snapshot := s.takeSnapshot v, busy := true, done := false, errcode := 0 }

/-! ### Completion -/

/-- What a successful command leaves: bytes to write from an address on, and the value of RESULT (R95). -/
structure Effect where
  addr : Nat
  bytes : List Byte
  result : Word
  deriving DecidableEq, Repr

/-- Completion with code 0 (R95, R215, R36, R37): OUTLEN counts the MEM bytes written, ERR keeps its value. -/
def State.completeOk (s : State) (e : Effect) : State :=
  { s with
    mem := Memory.writeBytes s.mem e.addr e.bytes
    result := e.result
    outlen := BitVec.ofNat 32 e.bytes.length
    errcode := 0
    busy := false
    done := true }

/-- Completion with an error code (R95, R214): XCORE's one way to report an error; it takes no trap (R210, R221), so
nothing is saved and there is nothing to return from (R222). -/
def State.completeError (s : State) (code : Byte) : State :=
  { s with
    result := 0
    outlen := 0
    err := true
    errcode := code
    busy := false
    done := true }

/-- Append the response to a host access. -/
def State.respond (s : State) (r : BusResponse) : State :=
  { s with responses := r :: s.responses }

end Sys2Proof.Machine
end

