-- ==== Sys2Proof/Machine/Operands.lean ====
section
/-! DEFINITION. The operands of the commands: the regions of MEM each reads and writes and the checks that apply to it, all
from the snapshot (spec/60_exceptions.md R213, spec/20_memory.md R67). -/

namespace Sys2Proof.Machine

/-- A run of MEM bytes `[base, base + n)` (R14). -/
structure Region where
  base : Nat
  n : Nat
  deriving DecidableEq, Repr

/-- The region of a command that names none: it has no bytes. -/
def Region.empty : Region := ⟨0, 0⟩

/-- `fits(base, n)` of R67, over unbounded naturals. -/
def Region.fits (r : Region) : Bool := decide (r.n = 0) || decide (r.base + r.n ≤ Config.memSize)

/-- The first operand region, `(SRC, n)`. -/
def Snapshot.srcRegion (p : Snapshot) (n : Nat) : Region := ⟨p.src.toNat, n⟩

/-- The second operand region, `(KEY, n)`. -/
def Snapshot.keyRegion (p : Snapshot) (n : Nat) : Region := ⟨p.key.toNat, n⟩

/-- The output region, `(DST, n)`. -/
def Snapshot.dstRegion (p : Snapshot) (n : Nat) : Region := ⟨p.dst.toNat, n⟩

/-- LEN as a byte count. -/
def Snapshot.lenBytes (p : Snapshot) : Nat := p.len.toNat

/-- KLEN as a byte count. -/
def Snapshot.klenBytes (p : Snapshot) : Nat := p.klen.toNat

/-- The bytes of an order-`O` state, `O²` (R10). -/
def stateBytes (o : Order) : Nat := o.side * o.side

/-- `N_enc`, the length of the ciphertext of `n` bytes: `16·⌈n / 16⌉ + 1` (R172, R213). -/
def encryptedLength (n : Nat) : Nat := 16 * ((n + 15) / 16) + 1

/-- The accepted cipher key lengths: the multiples of 4 from 4 to `KEY_MAX` (R8). -/
def keySizeOk (n : Nat) : Bool := decide (n % 4 = 0) && decide (4 ≤ n) && decide (n ≤ Config.keyMax)

/-- A ciphertext is whole blocks and a marker byte, at least 17 bytes (R173). -/
def ciphertextSizeOk (n : Nat) : Bool := decide (17 ≤ n) && decide ((n - 1) % 16 = 0)

/-- One row of R213's table, with R211's causes evaluated on the snapshot: which error conditions hold, the regions, and
where the byte that must be a pad marker lies. -/
structure Requirements where
  badSelect : Bool := false
  badKeySize : Bool := false
  zeroLength : Bool := false
  emptyInput : Bool := false
  badCiphertextSize : Bool := false
  inputs : List Region := []
  output : Region := Region.empty
  marker : Option Nat := none
  deriving DecidableEq, Repr

/-- R213, row by row. -/
def requirements (i : Instr) (p : Snapshot) : Requirements :=
  match i with
  | .nop => {}
  | .gfmul _ => {}
  | .subst _ =>
    { zeroLength := decide (p.lenBytes = 0), inputs := [p.srcRegion p.lenBytes], output := p.dstRegion p.lenBytes }
  | .rotrow _ _ =>
    { zeroLength := decide (p.lenBytes = 0), inputs := [p.srcRegion p.lenBytes], output := p.dstRegion p.lenBytes }
  | .shrows o _ => { inputs := [p.srcRegion (stateBytes o)], output := p.dstRegion (stateBytes o) }
  | .mixcol o t _ =>
    { badSelect := !(t.order == o), inputs := [p.srcRegion (stateBytes o)], output := p.dstRegion (stateBytes o) }
  | .addb =>
    { zeroLength := decide (p.lenBytes = 0), inputs := [p.srcRegion p.lenBytes, p.keyRegion p.lenBytes],
      output := p.dstRegion p.lenBytes }
  | .addbt =>
    { zeroLength := decide (p.lenBytes = 0), inputs := [p.srcRegion p.lenBytes, p.keyRegion p.klenBytes],
      output := p.dstRegion p.lenBytes }
  | .xkeyc => { badKeySize := !keySizeOk p.klenBytes, inputs := [p.keyRegion p.klenBytes], output := p.dstRegion 240 }
  | .xkeyh => { inputs := [p.srcRegion 64], output := p.dstRegion 704 }
  | .xaeencr => { inputs := [p.srcRegion 16, p.keyRegion 16], output := p.dstRegion 16 }
  | .xaedecr => { inputs := [p.srcRegion 16, p.keyRegion 16], output := p.dstRegion 16 }
  | .xaeenc =>
    { badKeySize := !keySizeOk p.klenBytes, emptyInput := decide (p.lenBytes = 0),
      inputs := [p.srcRegion p.lenBytes, p.keyRegion p.klenBytes], output := p.dstRegion (encryptedLength p.lenBytes) }
  | .xaedec =>
    { badKeySize := !keySizeOk p.klenBytes, badCiphertextSize := !ciphertextSizeOk p.lenBytes,
      inputs := [p.srcRegion p.lenBytes, p.keyRegion p.klenBytes], output := p.dstRegion (p.lenBytes - 1),
      marker := some (p.src.toNat + p.lenBytes - 1) }
  | .xwhrnd => { inputs := [p.srcRegion 64, p.keyRegion 64], output := p.dstRegion 64 }
  | .xwhcmp => { inputs := [p.srcRegion 64, p.keyRegion 64], output := p.dstRegion 64 }
  | .xwhhash => { inputs := [p.srcRegion p.lenBytes], output := p.dstRegion 64 }

/-- GFMUL's operand `a`, `OPA[7:0]` (R35). -/
def Snapshot.operandA (p : Snapshot) : Byte := p.opa.extractLsb' 0 8

/-- GFMUL's operand `b`, `OPB[7:0]` (R35). -/
def Snapshot.operandB (p : Snapshot) : Byte := p.opb.extractLsb' 0 8

end Sys2Proof.Machine
end

