-- ==== Sys2Proof/Machine/Flags.lean ====
section
/-! DEFINITION. The error codes and the order of the checks (spec/60_exceptions.md R211, R212), the STATUS and CTRL words
(spec/10_state.md R24 to R32), the IRQ output (R219), and the completion of a command (spec/30_encoding.md R95). -/

namespace Sys2Proof.Machine

/-! ### Error codes -/

/-- The errors of R211, in code order. -/
inductive ErrorCode where
  | illegalOpcode | reservedField | badSelect | keySize | length | emptyInput | ctSize | range | padMarker
  deriving DecidableEq, Repr

/-- STATUS.ERRCODE of an error (R211); 0 is OK. -/
def ErrorCode.code : ErrorCode → Byte
  | .illegalOpcode => 1
  | .reservedField => 2
  | .badSelect => 3
  | .keySize => 4
  | .length => 5
  | .emptyInput => 6
  | .ctSize => 7
  | .range => 8
  | .padMarker => 9

/-- The error of a word that does not decode (R88). -/
def errorOfDecode : DecodeError → ErrorCode
  | .illegalOpcode => .illegalOpcode
  | .reservedField => .reservedField
  | .badSelect => .badSelect

/-- The first check of a decoded command that fails, in code order: the table select, the sizes, the range of every
region, and last the pad marker, which alone reads MEM (R212). -/
def check (r : Requirements) (s : State) : Option ErrorCode :=
  if r.badSelect then some .badSelect
  else if r.badKeySize then some .keySize
  else if r.zeroLength then some .length
  else if r.emptyInput then some .emptyInput
  else if r.badCiphertextSize then some .ctSize
  else if !(r.inputs.all Region.fits && r.output.fits) then some .range
  else
    match r.marker with
    | none => none
    | some a => if (s.byteAt a).toNat ≤ 15 then none else some .padMarker

/-- The checks of a command on the snapshot (R95 `decode_and_check`, after decode). -/
def checkInstr (i : Instr) (s : State) : Option ErrorCode := check (requirements i s.snapshot) s

/-- The completion step of a decoded command: its checks, then its effect or its error (R95, R214, R215). -/
def complete (i : Instr) (s : State) (e : Effect) : State :=
  match checkInstr i s with
  | some c => s.completeError c.code
  | none => s.completeOk e

/-! ### STATUS, CTRL and IRQ -/

/-- A flag as the bit of a register at a place. -/
def flagBit (b : Bool) (n : Nat) : Word := (BitVec.ofBool b).setWidth 32 <<< n

/-- The STATUS word: BUSY [0], DONE [1], ERR [2], DROP [3], LOCKV [4], ERRCODE [15:8]; the rest reads 0 (R24 to R29). -/
def State.statusWord (s : State) : Word :=
  flagBit s.busy 0 ||| flagBit s.done 1 ||| flagBit s.err 2 ||| flagBit s.drop 3 ||| flagBit s.lockv 4 |||
    (s.errcode.setWidth 32 <<< 8)

/-- The CTRL word: IE [0]; SRST and the rest read 0 (R31, R32). -/
def State.ctrlWord (s : State) : Word := flagBit s.ie 0

/-- A host write of `v` to STATUS: each W1C flag whose bit in `v` is 1 is cleared (R30). -/
def State.clearStatus (s : State) (v : Word) : State :=
  { s with
    done := s.done && !v.getLsbD 1
    err := s.err && !v.getLsbD 2
    drop := s.drop && !v.getLsbD 3
    lockv := s.lockv && !v.getLsbD 4 }

/-- The IRQ output, `CTRL.IE ∧ STATUS.DONE` (R219). -/
def State.irq (s : State) : Bool := s.ie && s.done

end Sys2Proof.Machine
end

