-- ==== Sys2Proof/Machine/Gf.lean ====
section
/-! DEFINITION. The GF(2^8) multiplier and the block transforms as pure functions over byte sequences
(spec/40_gf_transforms.md R100 to R107). -/

namespace Sys2Proof.Machine

/-- One shift of `a` with reduction: the bit shifted out is bit 7 (R100). -/
def xtime (m a : Byte) : Byte := if a.getLsbD 7 then (a <<< 1) ^^^ m else a <<< 1

/-- `n` steps of R100's loop, with `p` the accumulator. -/
def gfMulSteps : Nat → Byte → Byte → Byte → Byte → Byte
  | 0, _, _, _, p => p
  | n + 1, a, b, m, p => gfMulSteps n (xtime m a) (b >>> 1) m (if b.getLsbD 0 then p ^^^ a else p)

/-- `gf_mul(a, b, m)` (R100). -/
def gfMul (a b m : Byte) : Byte := gfMulSteps 8 a b m 0

/-- `sub(T, x)` (R102). -/
def substitute (t : Byte → Byte) (x : List Byte) : List Byte := x.map t

/-- The index `rot` reads for output index `i` of a row of `n` bytes (R103). -/
def rotIndex (n k : Nat) (d : Dir) (i : Nat) : Nat :=
  match d with
  | .fwd => (i + k % n) % n
  | .bwd => (i + n - k % n) % n

/-- `rot(row, k, d)` (R103). -/
def rotateRow (row : List Byte) (k : Nat) (d : Dir) : List Byte :=
  (List.range row.length).map fun i => row.getD (rotIndex row.length k d i) 0

/-- `x[a .. a + n)` (R10). -/
def slice (x : List Byte) (a n : Nat) : List Byte := (x.drop a).take n

/-- `shift_rows(x, O, d)` (R104). -/
def shiftRows (x : List Byte) (side : Nat) (d : Dir) : List Byte :=
  (List.range side).flatMap fun r => rotateRow (slice x (r * side) side) r d

/-- One output byte of `mix`: row `i` of the matrix times column `j` of the state (R105). -/
def mixByte (x : List Byte) (side : Nat) (M : Fin side → Fin side → Byte) (m : Byte) (i j : Fin side) : Byte :=
  (List.finRange side).foldl (fun acc k => acc ^^^ gfMul (M i k) (x.getD (k.val * side + j.val) 0) m) 0

/-- `mix(x, O, M, m)` (R105), row by row. -/
def mixColumns (x : List Byte) (side : Nat) (M : Fin side → Fin side → Byte) (m : Byte) : List Byte :=
  (List.finRange side).flatMap fun i => (List.finRange side).map fun j => mixByte x side M m i j

/-- `add(a, b)` (R106). -/
def addBytes (a b : List Byte) : List Byte := List.zipWith (· ^^^ ·) a b

/-- `add_trunc(a, b)` (R107). -/
def addTrunc : List Byte → List Byte → List Byte
  | [], _ => []
  | a, [] => a
  | x :: a, y :: b => (x ^^^ y) :: addTrunc a b

end Sys2Proof.Machine
end

