-- ==== Sys2Proof/Machine/Primitives.lean ====
section
/-! DEFINITION. NOP, GFMUL and the block-transform commands (spec/40_gf_transforms.md R110 to R117). A command's effect takes
the constant tables as an argument; its meaning uses those of the instance. -/

namespace Sys2Proof.Machine

/-- The effect of a command that writes `bytes` to the region at DST. -/
def Effect.toDst (s : State) (bytes : List Byte) : Effect := ⟨s.snapshot.dst.toNat, bytes, 0⟩

/-- The bytes of the region at SRC. -/
def State.readSrc (s : State) (n : Nat) : List Byte := s.readBytes s.snapshot.src.toNat n

/-- The bytes of the region at KEY. -/
def State.readKey (s : State) (n : Nat) : List Byte := s.readBytes s.snapshot.key.toNat n

/-- The S-box a SUBST selects (R84). -/
def sboxOf (T : Tables) : SubstTable → Byte → Byte
  | .c => T.sboxC
  | .ci => T.sboxCI
  | .h => T.sboxH

/-- `mix` of an order-`O` state with the matrix a MIXCOL selects (R84, R115). -/
def mixWith (T : Tables) (t : MixTable) (m : Byte) (x : List Byte) : List Byte :=
  match t with
  | .cs => mixColumns x 4 T.mixCS m
  | .cf => mixColumns x 4 T.mixCF m
  | .hs => mixColumns x 8 T.mixHS m

/-- The effect of NOP: no byte (R110). -/
def nopEffect : Effect := ⟨0, [], 0⟩

/-- The effect of GFMUL: the product in RESULT (R111). -/
def gfmulEffect (m : Byte) (s : State) : Effect :=
  ⟨0, [], (gfMul s.snapshot.operandA s.snapshot.operandB m).setWidth 32⟩

/-- The effect of SUBST (R112). -/
def substEffect (T : Tables) (t : SubstTable) (s : State) : Effect :=
  .toDst s (substitute (sboxOf T t) (s.readSrc s.snapshot.lenBytes))

/-- The effect of ROTROW (R113). -/
def rotrowEffect (k : Byte) (d : Dir) (s : State) : Effect :=
  .toDst s (rotateRow (s.readSrc s.snapshot.lenBytes) k.toNat d)

/-- The effect of SHROWS (R114). -/
def shrowsEffect (o : Order) (d : Dir) (s : State) : Effect :=
  .toDst s (shiftRows (s.readSrc (stateBytes o)) o.side d)

/-- The effect of MIXCOL (R115). -/
def mixcolEffect (T : Tables) (o : Order) (t : MixTable) (m : Byte) (s : State) : Effect :=
  .toDst s (mixWith T t m (s.readSrc (stateBytes o)))

/-- The effect of ADDB (R116). -/
def addbEffect (s : State) : Effect :=
  .toDst s (addBytes (s.readSrc s.snapshot.lenBytes) (s.readKey s.snapshot.lenBytes))

/-- The effect of ADDBT (R117). -/
def addbtEffect (s : State) : Effect :=
  .toDst s (addTrunc (s.readSrc s.snapshot.lenBytes) (s.readKey s.snapshot.klenBytes))

/-- NOP (R110). -/
def execNop (s : State) : Host.Outcome State Fault Refusal := .next (complete .nop s nopEffect)

/-- GFMUL (R111). -/
def execGfmul (m : Byte) (s : State) : Host.Outcome State Fault Refusal :=
  .next (complete (.gfmul m) s (gfmulEffect m s))

/-- SUBST (R112). -/
def execSubst (t : SubstTable) (s : State) : Host.Outcome State Fault Refusal :=
  .next (complete (.subst t) s (substEffect Config.tables t s))

/-- ROTROW (R113). -/
def execRotrow (k : Byte) (d : Dir) (s : State) : Host.Outcome State Fault Refusal :=
  .next (complete (.rotrow k d) s (rotrowEffect k d s))

/-- SHROWS (R114). -/
def execShrows (o : Order) (d : Dir) (s : State) : Host.Outcome State Fault Refusal :=
  .next (complete (.shrows o d) s (shrowsEffect o d s))

/-- MIXCOL (R115). -/
def execMixcol (o : Order) (t : MixTable) (m : Byte) (s : State) : Host.Outcome State Fault Refusal :=
  .next (complete (.mixcol o t m) s (mixcolEffect Config.tables o t m s))

/-- ADDB (R116). -/
def execAddb (s : State) : Host.Outcome State Fault Refusal := .next (complete .addb s (addbEffect s))

/-- ADDBT (R117). -/
def execAddbt (s : State) : Host.Outcome State Fault Refusal := .next (complete .addbt s (addbtEffect s))

end Sys2Proof.Machine
end

