-- ==== Sys2Proof/Machine/KeySchedule.lean ====
section
/-! DEFINITION. The two key-schedule expanders and the commands XKEYC and XKEYH (spec/41_key_schedules.md). -/

namespace Sys2Proof.Machine

/-- The words of the cipher schedule, `(R + 1)·O` (R5, R140). -/
def scheduleWords : Nat := 60

/-- What a new word is XORed with: the previous word `t`, transformed by the branch its index `i` takes (R140). -/
def scheduleTransform (T : Tables) (W i : Nat) (t : List Byte) : List Byte :=
  if i % W = 0 then addTrunc (substitute T.sboxC (rotateRow t 1 .fwd)) [T.rconC (i / W)]
  else if 6 < W ∧ i % W = W / 2 then substitute T.sboxC t
  else t

/-- The word that follows the words so far (R140). -/
def nextScheduleWord (T : Tables) (W : Nat) (ws : List (List Byte)) : List Byte :=
  addBytes (ws.getD (ws.length - W) []) (scheduleTransform T W ws.length (ws.getD (ws.length - 1) []))

/-- `n` more words after the words so far (R140). -/
def extendSchedule (T : Tables) (W : Nat) : Nat → List (List Byte) → List (List Byte)
  | 0, ws => ws
  | n + 1, ws => extendSchedule T W n (ws ++ [nextScheduleWord T W ws])

/-- The `W` words of a key (R13, R140). -/
def keyWords (key : List Byte) (W : Nat) : List (List Byte) := (List.range W).map fun i => slice key (4 * i) 4

/-- `expand_cipher_key(key)` (R140): 240 bytes. -/
def expandCipherKey (T : Tables) (key : List Byte) : List Byte :=
  (extendSchedule T (key.length / 4) (scheduleWords - key.length / 4) (keyWords key (key.length / 4))).flatten

/-- Round key `i` of the cipher schedule (R141). -/
def cipherRoundKey (ks : List Byte) (i : Nat) : List Byte := slice ks (16 * i) 16

/-- Block `i` of the hash schedule from block `i - 1` (R142). -/
def nextHashKey (T : Tables) (i : Nat) (k : List Byte) : List Byte :=
  addTrunc (mixColumns (shiftRows (substitute T.sboxH k) 8 .fwd) 8 T.mixHS T.modH) (T.rconH i).toList

/-- The block `k` and the `n` blocks after it, the next one being block `i` (R142). -/
def hashKeyBlocks (T : Tables) : Nat → Nat → List Byte → List (List Byte)
  | 0, _, k => [k]
  | n + 1, i, k => k :: hashKeyBlocks T n (i + 1) (nextHashKey T i k)

/-- `expand_hash_key(seed)` (R142): 11 blocks, 704 bytes. -/
def expandHashKey (T : Tables) (seed : List Byte) : List Byte := (hashKeyBlocks T 10 1 seed).flatten

/-- Round key `r` of the hash schedule (R142). -/
def hashRoundKey (ks : List Byte) (r : Nat) : List Byte := slice ks (64 * r) 64

/-- The effect of XKEYC (R150). -/
def xkeycEffect (T : Tables) (s : State) : Effect :=
  .toDst s (expandCipherKey T (s.readKey s.snapshot.klenBytes))

/-- The effect of XKEYH (R151). -/
def xkeyhEffect (T : Tables) (s : State) : Effect := .toDst s (expandHashKey T (s.readSrc 64))

/-- XKEYC (R150). -/
def execXkeyc (s : State) : Host.Outcome State Fault Refusal := .next (complete .xkeyc s (xkeycEffect Config.tables s))

/-- XKEYH (R151). -/
def execXkeyh (s : State) : Host.Outcome State Fault Refusal := .next (complete .xkeyh s (xkeyhEffect Config.tables s))

end Sys2Proof.Machine
end

