-- ==== Sys2Proof/Machine/Xae.lean ====
section
/-! DEFINITION. The padding, the XAE rounds, the multi-block cipher, and the commands XAEENCR, XAEDECR, XAEENC and XAEDEC
(spec/42_xae_cipher.md). -/

namespace Sys2Proof.Machine

/-- The fold of a byte sequence: the XOR of its bytes (R160). -/
def foldBytes (buf : List Byte) : Byte := buf.foldl (· ^^^ ·) 0

/-- The padding byte (R160). -/
def padByte (buf : List Byte) : Byte := 0x01 ^^^ foldBytes buf

/-- How many bytes `pad` appends to `len` bytes to reach a multiple of `block`: `(-len) mod block` (R160). -/
def padCount (len block : Nat) : Nat := (block - len % block) % block

/-- `pad(buf, O)` with the block size `O²`: the padded sequence and the count of bytes appended (R160). -/
def pad (buf : List Byte) (block : Nat) : List Byte × Nat :=
  (buf ++ List.replicate (padCount buf.length block) (padByte buf), padCount buf.length block)

/-- `enc_round(x, k)` (R162): all four steps, in every round. -/
def encRound (T : Tables) (x k : List Byte) : List Byte :=
  addBytes (mixColumns (shiftRows (substitute T.sboxC x) 4 .fwd) 4 T.mixCS T.modC) k

/-- `dec_round(x, k)` (R163). -/
def decRound (T : Tables) (x k : List Byte) : List Byte :=
  substitute T.sboxCI (shiftRows (mixColumns (addBytes x k) 4 T.mixCF T.modC) 4 .bwd)

/-- The 15 forward rounds of one block, round keys 0 to 14 (R164). -/
def encBlock (T : Tables) (ks x : List Byte) : List Byte :=
  (List.range 15).foldl (fun x i => encRound T x (cipherRoundKey ks i)) x

/-- The 15 inverse rounds of one block, round keys 14 down to 0 (R165). -/
def decBlock (T : Tables) (ks x : List Byte) : List Byte :=
  (List.range 15).foldl (fun x i => decRound T x (cipherRoundKey ks (14 - i))) x

/-- A function of blocks applied to the `size`-byte blocks of a sequence, the results joined (R164, R165). -/
def mapBlocks (size : Nat) (f : List Byte → List Byte) (x : List Byte) : List Byte :=
  (List.range (x.length / size)).flatMap fun b => f (slice x (size * b) size)

/-- `xae_encrypt(pt, key)` (R164). -/
def xaeEncrypt (T : Tables) (pt key : List Byte) : List Byte :=
  mapBlocks 16 (encBlock T (expandCipherKey T key)) (pad pt 16).1 ++ [BitVec.ofNat 8 (pad pt 16).2]

/-- `xae_decrypt(ct, key)` (R165). -/
def xaeDecrypt (T : Tables) (ct key : List Byte) : List Byte :=
  let marker := ct.getD (ct.length - 1) 0
  let out := mapBlocks 16 (decBlock T (expandCipherKey T key)) (ct.take (ct.length - 1))
  out.take (out.length - marker.toNat)

/-- The effect of XAEENCR (R170). -/
def xaeencrEffect (T : Tables) (s : State) : Effect := .toDst s (encRound T (s.readSrc 16) (s.readKey 16))

/-- The effect of XAEDECR (R171). -/
def xaedecrEffect (T : Tables) (s : State) : Effect := .toDst s (decRound T (s.readSrc 16) (s.readKey 16))

/-- The effect of XAEENC (R172). -/
def xaeencEffect (T : Tables) (s : State) : Effect :=
  .toDst s (xaeEncrypt T (s.readSrc s.snapshot.lenBytes) (s.readKey s.snapshot.klenBytes))

/-- The effect of XAEDEC (R173): the plaintext alone is written, so the bytes after it keep their values. -/
def xaedecEffect (T : Tables) (s : State) : Effect :=
  .toDst s (xaeDecrypt T (s.readSrc s.snapshot.lenBytes) (s.readKey s.snapshot.klenBytes))

/-- XAEENCR (R170). -/
def execXaeencr (s : State) : Host.Outcome State Fault Refusal :=
  .next (complete .xaeencr s (xaeencrEffect Config.tables s))

/-- XAEDECR (R171). -/
def execXaedecr (s : State) : Host.Outcome State Fault Refusal :=
  .next (complete .xaedecr s (xaedecrEffect Config.tables s))

/-- XAEENC (R172). -/
def execXaeenc (s : State) : Host.Outcome State Fault Refusal :=
  .next (complete .xaeenc s (xaeencEffect Config.tables s))

/-- XAEDEC (R173). -/
def execXaedec (s : State) : Host.Outcome State Fault Refusal :=
  .next (complete .xaedec s (xaedecEffect Config.tables s))

end Sys2Proof.Machine
end

