-- ==== Sys2Proof/Machine/Xwh.lean ====
section
/-! DEFINITION. The XWH round, the Miyaguchi-Preneel compression, the chained hash, and the commands XWHRND, XWHCMP and
XWHHASH (spec/43_xwh_hash.md). -/

namespace Sys2Proof.Machine

/-- `hash_round(x, k)` (R190). -/
def hashRound (T : Tables) (x k : List Byte) : List Byte :=
  addBytes (mixColumns (shiftRows (substitute T.sboxH x) 8 .fwd) 8 T.mixHS T.modH) k

/-- The 11 rounds of one block under a hash schedule (R191). -/
def hashBlock (T : Tables) (ks x : List Byte) : List Byte :=
  (List.range 11).foldl (fun x r => hashRound T x (hashRoundKey ks r)) x

/-- `compress(H, B)` (R191). -/
def compress (T : Tables) (H B : List Byte) : List Byte :=
  addBytes (addBytes B H) (hashBlock T (expandHashKey T H) B)

/-- The ASCII byte of a decimal digit (R192). -/
def asciiDigit (d : Nat) : Byte := 0x30 + BitVec.ofNat 8 d

/-- The decimal digits of `n`, most significant first; the first argument bounds how many (R192). -/
def decDigits : Nat → Nat → List Byte
  | 0, _ => []
  | fuel + 1, n => if n < 10 then [asciiDigit n] else decDigits fuel (n / 10) ++ [asciiDigit (n % 10)]

/-- `dec_ascii(n)` (R192): `n + 1` digits are always enough. -/
def decAscii (n : Nat) : List Byte := decDigits (n + 1) n

/-- The working buffer `IV ++ dec_ascii(len) ++ msg` (R193). -/
def hashBuffer (T : Tables) (msg : List Byte) : List Byte := T.ivH.toList ++ decAscii msg.length ++ msg

/-- The padded working buffer (R193). -/
def paddedBuffer (T : Tables) (msg : List Byte) : List Byte := (pad (hashBuffer T msg) 64).1

/-- The number of message blocks `N` (R193). -/
def blockCount (T : Tables) (msg : List Byte) : Nat := (paddedBuffer T msg).length / 64 - 1

/-- `xwh_hash(msg)` (R193). -/
def xwhHash (T : Tables) (msg : List Byte) : List Byte :=
  (List.range (blockCount T msg)).foldl
    (fun H i => compress T H (slice (paddedBuffer T msg) (64 * (i + 1)) 64)) (slice (paddedBuffer T msg) 0 64)

/-- The effect of XWHRND (R200). -/
def xwhrndEffect (T : Tables) (s : State) : Effect := .toDst s (hashRound T (s.readSrc 64) (s.readKey 64))

/-- The effect of XWHCMP (R201): the block at SRC, the chaining value at KEY. -/
def xwhcmpEffect (T : Tables) (s : State) : Effect := .toDst s (compress T (s.readKey 64) (s.readSrc 64))

/-- The effect of XWHHASH (R202). -/
def xwhhashEffect (T : Tables) (s : State) : Effect := .toDst s (xwhHash T (s.readSrc s.snapshot.lenBytes))

/-- XWHRND (R200). -/
def execXwhrnd (s : State) : Host.Outcome State Fault Refusal :=
  .next (complete .xwhrnd s (xwhrndEffect Config.tables s))

/-- XWHCMP (R201). -/
def execXwhcmp (s : State) : Host.Outcome State Fault Refusal :=
  .next (complete .xwhcmp s (xwhcmpEffect Config.tables s))

/-- XWHHASH (R202). -/
def execXwhhash (s : State) : Host.Outcome State Fault Refusal :=
  .next (complete .xwhhash s (xwhhashEffect Config.tables s))

end Sys2Proof.Machine
end

