-- ==== Sys2Proof/Machine/Dispatch.lean ====
section
/-! DEFINITION. Which meaning each command has: one arm per constructor. -/

namespace Sys2Proof.Machine

def exec (i : Instr) (s : State) : Host.Outcome State Fault Refusal :=
  match i with
  | .nop => Sys2Proof.Machine.execNop s
  | .gfmul m => Sys2Proof.Machine.execGfmul m s
  | .subst t => Sys2Proof.Machine.execSubst t s
  | .rotrow k d => Sys2Proof.Machine.execRotrow k d s
  | .shrows o d => Sys2Proof.Machine.execShrows o d s
  | .mixcol o t m => Sys2Proof.Machine.execMixcol o t m s
  | .addb => Sys2Proof.Machine.execAddb s
  | .addbt => Sys2Proof.Machine.execAddbt s
  | .xkeyc => Sys2Proof.Machine.execXkeyc s
  | .xkeyh => Sys2Proof.Machine.execXkeyh s
  | .xaeencr => Sys2Proof.Machine.execXaeencr s
  | .xaedecr => Sys2Proof.Machine.execXaedecr s
  | .xaeenc => Sys2Proof.Machine.execXaeenc s
  | .xaedec => Sys2Proof.Machine.execXaedec s
  | .xwhrnd => Sys2Proof.Machine.execXwhrnd s
  | .xwhcmp => Sys2Proof.Machine.execXwhcmp s
  | .xwhhash => Sys2Proof.Machine.execXwhhash s

end Sys2Proof.Machine
end

