-- ==== Sys2Proof/Machine/Reset.lean ====
section
/-! DEFINITION. Reset, by the platform or by CTRL.SRST, the abort of a running command, and power-on
(spec/70_reset_and_hazards.md R240 to R244). -/

namespace Sys2Proof.Machine

/-- Every register at its reset value and the snapshot discarded; MEM untouched (R241, R243). -/
def State.clearRegisters (s : State) : State :=
  { s with
    cmd := 0
    src := 0
    dst := 0
    len := 0
    key := 0
    klen := 0
    opa := 0
    opb := 0
    result := 0
    outlen := 0
    ie := false
    busy := false
    done := false
    err := false
    drop := false
    lockv := false
    errcode := 0
    snapshot := Snapshot.empty }

/-- The output region that an abort leaves unspecified: that of a running command whose checks would have passed.
`none` when nothing runs or the checks would have failed (R242, R213). -/
def State.abortRegion (s : State) : Option Region :=
  if s.busy then
    match decode s.snapshot.cmd with
    | .error _ => none
    | .ok i =>
      match checkInstr i s with
      | some _ => none
      | none => some (requirements i s.snapshot).output
  else none

/-- The free bytes an abort leaves in a region (R242, U2). -/
def abortBytes (abort : Nat) (r : Region) : List Byte :=
  (List.range r.n).map fun k => Config.abortByte abort (r.base + k)

/-- The reset action, in one step (R241), with the abort of a running command (R242). -/
def State.resetAction (s : State) : State :=
  match s.abortRegion with
  | none => s.clearRegisters
  | some r =>
    { s.clearRegisters with
      mem := Memory.writeBytes s.mem r.base (abortBytes s.aborts r)
      aborts := s.aborts + 1 }

/-- Power-on: the reset action, and every MEM byte unspecified again (R240, R244). -/
def State.powerOnAction (s : State) : State :=
  { s.clearRegisters with mem := [], powerOns := s.powerOns + 1 }

end Sys2Proof.Machine
end

