-- ==== Sys2Proof/Machine/HostBus.lean ====
section
/-! DEFINITION. Host accesses: the register block (spec/10_state.md R21 to R38), the MEM window with its lock, and the bus
errors (spec/20_memory.md R62 to R66, spec/60_exceptions.md R216 to R218). -/

namespace Sys2Proof.Machine

/-! ### The register block -/

/-- The offset of a register (R22). -/
def Reg.offset : Reg → Nat
  | .id => 0x000
  | .cmd => 0x004
  | .status => 0x008
  | .ctrl => 0x00C
  | .src => 0x010
  | .dst => 0x014
  | .len => 0x018
  | .key => 0x01C
  | .klen => 0x020
  | .opa => 0x024
  | .opb => 0x028
  | .result => 0x02C
  | .outlen => 0x030

/-- The thirteen registers (R22, D7). -/
def Reg.all : List Reg := [.id, .cmd, .status, .ctrl, .src, .dst, .len, .key, .klen, .opa, .opb, .result, .outlen]

/-- The register at an offset; `none` for a reserved one (R22, R38). -/
def Reg.atOffset (o : Nat) : Option Reg := Reg.all.find? fun r => r.offset == o

/-- What a register reads. No read has a side effect (R69). -/
def State.readReg (s : State) : Reg → Word
  | .id => Config.idValue
  | .cmd => s.cmd
  | .status => s.statusWord
  | .ctrl => s.ctrlWord
  | .src => s.src
  | .dst => s.dst
  | .len => s.len
  | .key => s.key
  | .klen => s.klen
  | .opa => s.opa
  | .opb => s.opb
  | .result => s.result
  | .outlen => s.outlen

/-- A write to CMD: a launch, or a dropped word while a command runs (R23, R94, R216). -/
def State.writeCmd (s : State) (v : Word) : State :=
  if s.busy then { s with drop := true } else s.launch v

/-- A write to CTRL: a soft reset if bit 1 is set, else IE (R31, R32). -/
def State.writeCtrl (s : State) (v : Word) : State :=
  if v.getLsbD 1 then s.resetAction else { s with ie := v.getLsbD 0 }

/-- A host write of `v` to a register (R21 to R37). -/
def State.writeReg (s : State) (r : Reg) (v : Word) : State :=
  match r with
  | .id => s
  | .cmd => s.writeCmd v
  | .status => s.clearStatus v
  | .ctrl => s.writeCtrl v
  | .src => { s with src := v }
  | .dst => { s with dst := v }
  | .len => { s with len := v }
  | .key => { s with key := v }
  | .klen => { s with klen := v }
  | .opa => { s with opa := v }
  | .opb => { s with opb := v }
  | .result => s
  | .outlen => s

/-- What a read of an aligned word of the register block returns; a reserved offset reads 0 (R38). -/
def State.readRegBlock (s : State) (o : Nat) : Word :=
  match Reg.atOffset o with
  | some r => s.readReg r
  | none => 0

/-- A write of an aligned word of the register block; a reserved offset ignores it (R38). -/
def State.writeRegBlock (s : State) (o : Nat) (v : Word) : State :=
  match Reg.atOffset o with
  | some r => s.writeReg r v
  | none => s

/-! ### The MEM window -/

/-- The bytes of an access. -/
def AccessSize.bytes : AccessSize → Nat
  | .byte => 1
  | .half => 2
  | .word => 4

/-- `sum of b[i] · 256^i`: the little-endian value of a byte sequence (R64). -/
def littleEndian : List Byte → Word
  | [] => 0
  | b :: bs => b.setWidth 32 ||| (littleEndian bs <<< 8)

/-- The low `n` bytes of a value, `v[8i+7:8i]` at index `i` (R64). -/
def bytesOf (v : Word) (n : Nat) : List Byte := (List.range n).map fun i => v.extractLsb' (8 * i) 8

/-- An aligned access to `size` bytes at the MEM address `a` (R64); it is locked out while a command runs (R66, R217). -/
def State.accessMem (s : State) (a : Nat) (size : AccessSize) (op : BusOp) : State × BusResponse :=
  match op with
  | .read =>
    if s.busy then ({ s with lockv := true }, .data 0)
    else (s, .data (littleEndian (s.readBytes a size.bytes)))
  | .write v =>
    if s.busy then ({ s with lockv := true }, .okay)
    else ({ s with mem := Memory.writeBytes s.mem a (bytesOf v size.bytes) }, .okay)

/-! ### One host access -/

/-- An aligned 32-bit access to the register block. -/
def State.accessReg (s : State) (o : Nat) (op : BusOp) : State × BusResponse :=
  match op with
  | .read => (s, .data (s.readRegBlock o))
  | .write v => (s.writeRegBlock o v, .okay)

/-- The host address map (R62) with the access rules of its parts (R63, R64). A misaligned access is a bus error, and
a bus error changes no state (R218), whether or not a command runs (notes/assumptions/7.md). -/
def State.accessAt (s : State) (a : BusAccess) : State × BusResponse :=
  let o := a.offset.toNat
  if o < 0x1000 then
    if a.size = .word ∧ o % 4 = 0 then s.accessReg o a.op else (s, .busError)
  else if 0x10000 ≤ o ∧ o - 0x10000 + a.size.bytes ≤ Config.memSize ∧ o % a.size.bytes = 0 then
    s.accessMem (o - 0x10000) a.size a.op
  else (s, .busError)

/-- The step of one host access: its effect, and its response to the host. -/
def State.hostAccess (s : State) (a : BusAccess) : State := (s.accessAt a).1.respond (s.accessAt a).2

end Sys2Proof.Machine
end

