-- ==== Sys2Proof/Machine/Engine.lean ====
section
/-! DEFINITION. The engine's one step, completion (spec/30_encoding.md R95), and which agent moves (spec/00_scope.md R15). -/

namespace Sys2Proof.Machine

/-- The completion step: decode the latched word, then run the command; a word that is no command completes with
its error (R88, R95). -/
def completion (s : State) : Host.Outcome State Fault Refusal :=
  match decode s.snapshot.cmd with
  | .ok i => exec i s
  | .error e => .next (s.completeError (errorOfDecode e).code)

/-- The engine's turn: its step is enabled exactly when BUSY = 1 (R15); an idle engine holds its state (R229). -/
def engineTurn (s : State) : Host.Outcome State Fault Refusal :=
  if s.busy then completion s else .next s

/-- One move. -/
def move (m : Move) (s : State) : Host.Outcome State Fault Refusal :=
  match m with
  | .access a => .next (s.hostAccess a)
  | .engine => engineTurn s
  | .hardReset => .next s.resetAction
  | .powerOn => .next s.powerOnAction

/-- Who moves next: the first of the agenda; when nobody else is to move, the engine (R253; notes/assumptions/8.md). -/
def State.nextMove (s : State) : Move := s.agenda.headD .engine

/-- Take the next move off the agenda and make it. -/
def takeMove (s : State) : Host.Outcome State Fault Refusal := move s.nextMove { s with agenda := s.agenda.tail }

/-- The launched state in which the engine's next turn completes the word `w` (notes/assumptions/9.md). -/
def launchedWith (s : State) (w : Word) : State := { s.launch w with agenda := .engine :: s.agenda }

end Sys2Proof.Machine
end

