-- ==== Sys2Proof/Machine/Step.lean ====
section
/-! DEFINITION. One step of XCORE, and how a command word is placed to be the next to run. -/

namespace Sys2Proof.Machine

/-- One step: the next move of the agenda (spec/00_scope.md R15, spec/20_memory.md R70). -/
def step (s : State) : Host.Outcome State Fault Refusal := takeMove s

/-- XCORE fetches nothing (R20, R73): a command runs once a host write to CMD has launched it and the engine's turn has
come. This is the state after such a launch of `w`, with the engine to move next (notes/assumptions/9.md). -/
def State.withFetchWord (s : State) (nbits w : Nat) : State := launchedWith s (BitVec.ofNat 32 (w % 2 ^ nbits))

end Sys2Proof.Machine
end

