-- ==== Sys2Proof/Safety.lean ====
section
/-! DEFINITION. The terms claims are stated in: the invariant of a run, what a successful and a failed completion leave,
which errors apply to a command (spec/60_exceptions.md R211, R213), and the premise on the tables
(spec/10_state.md R40, R42). -/

namespace Sys2Proof.Machine

/-- What every step keeps: MEM in canonical form (R60), ERRCODE a code of R211 (R29), no DONE and no ERRCODE while a
command runs (R94, R222), the snapshot of the word in CMD while it runs (R23, R39), RESULT a byte (R36) and OUTLEN
at most `MEM_SIZE` (R37). -/
structure State.Inv (s : State) : Prop where
  mem_wf : Memory.wf s.mem = true
  errcode_le : s.errcode.toNat ≤ 9
  busy_done : s.busy = true → s.done = false
  busy_errcode : s.busy = true → s.errcode = 0
  busy_cmd : s.busy = true → s.snapshot.cmd = s.cmd
  result_lt : s.result.toNat < 256
  outlen_le : s.outlen.toNat ≤ Config.memSize

/-- Everything that a completion does not write is the same in `t` as in `s` (R33 to R35, R95, R214, R215). -/
structure SameBeside (s t : State) : Prop where
  cmd : t.cmd = s.cmd
  src : t.src = s.src
  dst : t.dst = s.dst
  len : t.len = s.len
  key : t.key = s.key
  klen : t.klen = s.klen
  opa : t.opa = s.opa
  opb : t.opb = s.opb
  ie : t.ie = s.ie
  drop : t.drop = s.drop
  lockv : t.lockv = s.lockv
  snapshot : t.snapshot = s.snapshot
  powerOns : t.powerOns = s.powerOns
  aborts : t.aborts = s.aborts
  agenda : t.agenda = s.agenda
  responses : t.responses = s.responses

/-- `t` is `s` after a completion with code 0 that wrote `bytes` from `addr` on and `result` to RESULT (R95, R215):
the STATUS fields, RESULT, OUTLEN, each stored byte, and all that stays as it was. -/
structure Succeeds (s t : State) (addr : Nat) (bytes : List Byte) (result : Word) : Prop where
  busy : t.busy = false
  done : t.done = true
  errcode : t.errcode = 0
  err : t.err = s.err
  result_eq : t.result = result
  outlen : t.outlen = BitVec.ofNat 32 bytes.length
  stored : ∀ i < bytes.length, t.byteAt (addr + i) = bytes.getD i 0
  kept : ∀ a, a < addr ∨ addr + bytes.length ≤ a → t.byteAt a = s.byteAt a
  beside : SameBeside s t

/-- `t` is `s` after a completion with the error `e` (R214): no MEM byte is written and nothing else changes. -/
structure FailsWith (s t : State) (e : ErrorCode) : Prop where
  busy : t.busy = false
  done : t.done = true
  errcode : t.errcode = e.code
  err : t.err = true
  result_eq : t.result = 0
  outlen : t.outlen = 0
  mem : t.mem = s.mem
  beside : SameBeside s t

/-- A region fits in MEM (R67). -/
def Region.Fits (r : Region) : Prop := r.n = 0 ∨ r.base + r.n ≤ 65536

/-- The input regions of each command: the second column of R213, written out apart from `requirements`. -/
def inputRegions (i : Instr) (p : Snapshot) : List Region :=
  match i with
  | .nop | .gfmul _ => []
  | .subst _ | .rotrow _ _ => [⟨p.src.toNat, p.len.toNat⟩]
  | .shrows .four _ | .mixcol .four _ _ => [⟨p.src.toNat, 16⟩]
  | .shrows .eight _ | .mixcol .eight _ _ => [⟨p.src.toNat, 64⟩]
  | .addb => [⟨p.src.toNat, p.len.toNat⟩, ⟨p.key.toNat, p.len.toNat⟩]
  | .addbt => [⟨p.src.toNat, p.len.toNat⟩, ⟨p.key.toNat, p.klen.toNat⟩]
  | .xkeyc => [⟨p.key.toNat, p.klen.toNat⟩]
  | .xkeyh => [⟨p.src.toNat, 64⟩]
  | .xaeencr | .xaedecr => [⟨p.src.toNat, 16⟩, ⟨p.key.toNat, 16⟩]
  | .xaeenc | .xaedec => [⟨p.src.toNat, p.len.toNat⟩, ⟨p.key.toNat, p.klen.toNat⟩]
  | .xwhrnd | .xwhcmp => [⟨p.src.toNat, 64⟩, ⟨p.key.toNat, 64⟩]
  | .xwhhash => [⟨p.src.toNat, p.len.toNat⟩]

/-- The output region of each command: the third column of R213, written out apart from `requirements`. NOP and GFMUL have
none, which is a region of no bytes. -/
def outputRegion (i : Instr) (p : Snapshot) : Region :=
  match i with
  | .nop | .gfmul _ => ⟨0, 0⟩
  | .subst _ | .rotrow _ _ | .addb | .addbt => ⟨p.dst.toNat, p.len.toNat⟩
  | .shrows .four _ | .mixcol .four _ _ => ⟨p.dst.toNat, 16⟩
  | .shrows .eight _ | .mixcol .eight _ _ => ⟨p.dst.toNat, 64⟩
  | .xkeyc => ⟨p.dst.toNat, 240⟩
  | .xkeyh => ⟨p.dst.toNat, 704⟩
  | .xaeencr | .xaedecr => ⟨p.dst.toNat, 16⟩
  | .xaeenc => ⟨p.dst.toNat, 16 * ((p.len.toNat + 15) / 16) + 1⟩
  | .xaedec => ⟨p.dst.toNat, p.len.toNat - 1⟩
  | .xwhrnd | .xwhcmp | .xwhhash => ⟨p.dst.toNat, 64⟩

/-- Which errors apply to a decoded command, by the causes of R211 and the commands that raise them. -/
def ErrorApplies (i : Instr) (s : State) : ErrorCode → Prop
  | .illegalOpcode => False
  | .reservedField => False
  | .badSelect => ∃ o t m, i = .mixcol o t m ∧ t.order ≠ o
  | .keySize =>
    (i = .xkeyc ∨ i = .xaeenc ∨ i = .xaedec) ∧ s.snapshot.klen.toNat ∉ [4, 8, 12, 16, 20, 24, 28, 32]
  | .length =>
    ((∃ t, i = .subst t) ∨ (∃ k d, i = .rotrow k d) ∨ i = .addb ∨ i = .addbt) ∧ s.snapshot.len.toNat = 0
  | .emptyInput => i = .xaeenc ∧ s.snapshot.len.toNat = 0
  | .ctSize => i = .xaedec ∧ (s.snapshot.len.toNat < 17 ∨ (s.snapshot.len.toNat - 1) % 16 ≠ 0)
  | .range => ∃ r ∈ inputRegions i s.snapshot ++ [outputRegion i s.snapshot], ¬ r.Fits
  | .padMarker => i = .xaedec ∧ 15 < (s.byteAt (s.snapshot.src.toNat + s.snapshot.len.toNat - 1)).toNat

/-- Which errors apply to the word a launch latched: those of decode (R88), else those of the command. -/
def WordErrorApplies (s : State) (e : ErrorCode) : Prop :=
  match decode s.snapshot.cmd with
  | .error d => e = errorOfDecode d
  | .ok i => ErrorApplies i s e

/-- An access that reaches a register: 32 bits wide, at an aligned offset of the register block (R63). -/
structure ReachesReg (a : BusAccess) : Prop where
  block : a.offset.toNat < 0x1000
  size : a.size = .word
  aligned : a.offset.toNat % 4 = 0

/-- An access that reaches the MEM window, naturally aligned (R64). -/
structure ReachesMem (a : BusAccess) : Prop where
  window : 0x10000 ≤ a.offset.toNat
  inside : a.offset.toNat - 0x10000 + a.size.bytes ≤ Config.memSize
  aligned : a.offset.toNat % a.size.bytes = 0

/-- The move is an aligned 32-bit write of `v` to a register. -/
def WritesReg (m : Move) (r : Reg) (v : Word) : Prop := m = .access ⟨BitVec.ofNat 17 r.offset, .word, .write v⟩

/-- The move is a reset of any source (R240). -/
def Resets (m : Move) : Prop :=
  m = .hardReset ∨ m = .powerOn ∨ ∃ v : Word, WritesReg m .ctrl v ∧ v.getLsbD 1 = true

/-- The address lies in the region. -/
def Region.Has (r : Region) (a : Nat) : Prop := r.base ≤ a ∧ a < r.base + r.n

/-- The premise of R40: the inverse S-box inverts the forward one. XCORE does not check it (U4). -/
def SboxesInvert (T : Tables) : Prop := ∀ x, T.sboxCI (T.sboxC x) = x

/-- The premise of R42: the fold matrix inverts the spread matrix, for every 16-byte state. XCORE does not check it
(U4). -/
def MatricesInvert (T : Tables) : Prop :=
  ∀ x : List Byte, x.length = 16 → mixColumns (mixColumns x 4 T.mixCS T.modC) 4 T.mixCF T.modC = x

/-- The premises of R40 and R42 together. -/
structure Invertible (T : Tables) : Prop where
  sbox : SboxesInvert T
  mix : MatricesInvert T

/-- The accepted cipher key lengths (R8). -/
def KeyLength (n : Nat) : Prop := n ∈ [4, 8, 12, 16, 20, 24, 28, 32]

end Sys2Proof.Machine
end

