-- ==== Sys2Proof/Certificates/Slice0/Obligations.lean ====
section
/-! DEFINITION. The statements for the provers, from the numbered rules of spec/. A statement about `Config.tables`,
`Config.powerOnByte` or `Config.abortByte` holds whatever these free values are. -/

open Sys2Proof Sys2Proof.Machine

/-! ### The command word -/

/-- The decoder reads every well-formed command back from its word, with every field at every value (R81 to R90). -/
def Obligations.DecodeOfEncode : Prop :=
  ∀ i : Instr, i.wellFormed = true → decode (encode i) = .ok i

/-- A word that decodes is the word of the command it decodes to, and that command is well formed (R87, R88, R90). -/
def Obligations.EncodeOfDecode : Prop :=
  ∀ (c : Word) (i : Instr), decode c = .ok i → encode i = c ∧ i.wellFormed = true

/-- R88: which words are no command, in the order of its three checks, with R87's mask for each opcode; NOP's word is the
only no-operation word; and a word that is no command completes with the error, by R211's number, writing no MEM. -/
def Obligations.DecodeChecksInOrder : Prop :=
  ∀ c : Word,
    let opc := c.extractLsb' 0 8
    let ord := c.extractLsb' 8 1
    let tsel := c.extractLsb' 10 2
    let unallocated := (8 ≤ opc.toNat ∧ opc.toNat ≤ 0x0F) ∨ (0x12 ≤ opc.toNat ∧ opc.toNat ≤ 0x1F) ∨
      (0x24 ≤ opc.toNat ∧ opc.toNat ≤ 0x2F) ∨ 0x33 ≤ opc.toNat
    let mbz : Word := if opc = 1 then 0xFF00FF00 else if opc = 2 then 0xFFFFF300 else if opc = 3 then 0xFF00FD00
      else if opc = 4 then 0xFFFFFC00 else if opc = 5 then 0xFF00F200 else 0xFFFFFF00
    let badSelect := (opc = 2 ∧ tsel = 3) ∨
      (opc = 5 ∧ (tsel = 3 ∨ ((tsel = 0 ∨ tsel = 1) ∧ ord = 1) ∨ (tsel = 2 ∧ ord = 0)))
    (decode c = .error .illegalOpcode ↔ unallocated) ∧
      (decode c = .error .reservedField ↔ ¬ unallocated ∧ c &&& mbz ≠ 0) ∧
      (decode c = .error .badSelect ↔ ¬ unallocated ∧ c &&& mbz = 0 ∧ badSelect) ∧
      (decode c = .ok .nop ↔ c = 0) ∧
      ∀ (s : State) (d : DecodeError), s.snapshot.cmd = c → decode c = .error d →
        ∃ t, completion s = .next t ∧ FailsWith s t (errorOfDecode d) ∧
          t.errcode = match d with | .illegalOpcode => 1 | .reservedField => 2 | .badSelect => 3

/-- The examples of R90, and one word of each remaining family. -/
def Obligations.ExampleWordsDecode : Prop :=
  decode 0x001B0001 = .ok (.gfmul 0x1B) ∧ decode 0x00000204 = .ok (.shrows .four .bwd) ∧
    decode 0x00000104 = .ok (.shrows .eight .fwd) ∧ decode 0x001B0405 = .ok (.mixcol .four .cf 0x1B) ∧
    decode 0x001D0905 = .ok (.mixcol .eight .hs 0x1D) ∧ decode 0x00010003 = .ok (.rotrow 1 .fwd) ∧
    decode 0x00000802 = .ok (.subst .h) ∧ decode 0x00000010 = .ok .xkeyc ∧ decode 0x00000022 = .ok .xaeenc ∧
    decode 0x00000032 = .ok .xwhhash

/-- The assembler of R90: what it accepts is a well-formed command of the mnemonic, it accepts every such command in some
spelling, and it refuses a MIXCOL whose order and matrix disagree and a `#n` outside 0 to 255. Then R90's table, row by row:
the word of each mnemonic with its operands. -/
def Obligations.AssemblerAcceptsTheCommands : Prop :=
  (∀ op operands i, assemble op operands = some i → i.opcode = op ∧ i.wellFormed = true) ∧
    (∀ i : Instr, i.wellFormed = true → ∃ operands, assemble i.opcode operands = some i) ∧
    (∀ o t n, t.order ≠ o → assemble .mixcol [.order o, .mixTable t, .imm n] = none) ∧
    (∀ n, 255 < n → assemble .gfmul [.imm n] = none ∧ (∀ d, assemble .rotrow [.imm n, .dir d] = none) ∧
      ∀ o t, assemble .mixcol [.order o, .mixTable t, .imm n] = none) ∧
    (∀ n ≤ 255,
      (assemble .gfmul [.imm n]).map encode = some (BitVec.ofNat 32 (n * 0x10000 + 0x01)) ∧
      (assemble .rotrow [.imm n, .dir .fwd]).map encode = some (BitVec.ofNat 32 (n * 0x10000 + 0x003)) ∧
      (assemble .rotrow [.imm n, .dir .bwd]).map encode = some (BitVec.ofNat 32 (n * 0x10000 + 0x203)) ∧
      (assemble .mixcol [.order .four, .mixTable .cs, .imm n]).map encode =
        some (BitVec.ofNat 32 (n * 0x10000 + 0x005)) ∧
      (assemble .mixcol [.order .four, .mixTable .cf, .imm n]).map encode =
        some (BitVec.ofNat 32 (n * 0x10000 + 0x405)) ∧
      (assemble .mixcol [.order .eight, .mixTable .hs, .imm n]).map encode =
        some (BitVec.ofNat 32 (n * 0x10000 + 0x905))) ∧
    ((assemble .subst [.substTable .c]).map encode = some 0x002 ∧
      (assemble .subst [.substTable .ci]).map encode = some 0x402 ∧
      (assemble .subst [.substTable .h]).map encode = some 0x802 ∧
      (assemble .shrows [.order .four, .dir .fwd]).map encode = some 0x004 ∧
      (assemble .shrows [.order .four, .dir .bwd]).map encode = some 0x204 ∧
      (assemble .shrows [.order .eight, .dir .fwd]).map encode = some 0x104 ∧
      (assemble .shrows [.order .eight, .dir .bwd]).map encode = some 0x304) ∧
    ∀ row ∈ [(Opcode.nop, (0x00 : Word)), (.addb, 0x06), (.addbt, 0x07), (.xkeyc, 0x10), (.xkeyh, 0x11),
        (.xaeencr, 0x20), (.xaedecr, 0x21), (.xaeenc, 0x22), (.xaedec, 0x23), (.xwhrnd, 0x30), (.xwhcmp, 0x31),
        (.xwhhash, 0x32)],
      (assemble row.1 []).map encode = some row.2

/-! ### The step and the completion -/

/-- At the engine's turn, while BUSY = 1, the step is `exec` of the command that the latched word decodes to, at the state
whose agenda has moved on (R15, R95). `withFetchWord` puts the machine there with the word launched. The agenda and
`withFetchWord` are the model's (notes/assumptions/8.md, 9.md). -/
def Obligations.StepRunsTheDecodedCommand : Prop :=
  (∀ (s : State) (i : Instr), s.nextMove = .engine → s.busy = true → decode s.snapshot.cmd = .ok i →
      step s = exec i { s with agenda := s.agenda.tail }) ∧
    ∀ (s : State) (nbits w : Nat) (i : Instr), decode (BitVec.ofNat 32 (w % 2 ^ nbits)) = .ok i →
      step (s.withFetchWord nbits w) = exec i (s.launch (BitVec.ofNat 32 (w % 2 ^ nbits)))

/-- No step stops: every state has a next state, and every command completes in one step (R95, R210). -/
def Obligations.EveryStepAnswers : Prop :=
  (∀ s : State, ∃ t, step s = .next t) ∧
    ∀ (i : Instr) (s : State), ∃ t, exec i s = .next t ∧ t.busy = false ∧ t.done = true

/-- R214: a completion with an error sets RESULT, OUTLEN, ERR, ERRCODE, BUSY and DONE and changes nothing else. -/
def Obligations.ErrorCompletionIsPrecise : Prop :=
  ∀ s t : State, completion s = .next t → t.errcode ≠ 0 →
    t = { s with result := 0, outlen := 0, err := true, errcode := t.errcode, busy := false, done := true }

/-- What a completion with code 0 leaves unchanged, for all seventeen commands: every register but RESULT and OUTLEN, the
STATUS flags but BUSY and DONE, and every MEM byte outside the output region of R213, which starts at DST (R215, R68). -/
def Obligations.SuccessFrame : Prop :=
  ∀ (i : Instr) (s t : State), exec i s = .next t → t.errcode = 0 →
    t.busy = false ∧ t.done = true ∧ t.err = s.err ∧ SameBeside s t ∧
      ((outputRegion i s.snapshot).n = 0 ∨
        (outputRegion i s.snapshot).base = s.snapshot.dst.toNat) ∧
      ∀ a, ¬ (outputRegion i s.snapshot).Has a → t.byteAt a = s.byteAt a

/-- R212: the code a completion reports is the lowest of those that apply to the latched word; it is 0 when none does. The
codes have the numbers of R211, and `ErrorApplies` has R211's causes and the regions of R213, row by row. -/
def Obligations.LowestErrorIsReported : Prop :=
  (ErrorCode.code .illegalOpcode = 1 ∧ ErrorCode.code .reservedField = 2 ∧ ErrorCode.code .badSelect = 3 ∧
    ErrorCode.code .keySize = 4 ∧ ErrorCode.code .length = 5 ∧ ErrorCode.code .emptyInput = 6 ∧
    ErrorCode.code .ctSize = 7 ∧ ErrorCode.code .range = 8 ∧ ErrorCode.code .padMarker = 9) ∧
  ∀ s t : State, completion s = .next t →
    (t.errcode = 0 ↔ ∀ e, ¬ WordErrorApplies s e) ∧
      ∀ e : ErrorCode, t.errcode = e.code ↔
        WordErrorApplies s e ∧ ∀ e' : ErrorCode, e'.code.toNat < e.code.toNat → ¬ WordErrorApplies s e'

/-! ### What each command computes, and that it completes -/

/-- NOP (R110) completes in every state and writes no MEM byte. -/
def Obligations.NopCompletes : Prop :=
  ∀ s : State, ∃ t, exec .nop s = .next t ∧ Succeeds s t 0 [] 0

/-- GFMUL (R111) completes in every state; RESULT is the product of the low bytes of OPA and OPB. -/
def Obligations.GfmulCompletes : Prop :=
  ∀ (m : Byte) (s : State), ∃ t, exec (.gfmul m) s = .next t ∧
    Succeeds s t 0 [] ((gfMul (s.snapshot.opa.extractLsb' 0 8) (s.snapshot.opb.extractLsb' 0 8) m).setWidth 32)

/-- SUBST (R112): each byte of the region at SRC through the selected S-box, to the region at DST. -/
def Obligations.SubstCompletes : Prop :=
  ∀ (k : SubstTable) (s : State),
    let p := s.snapshot
    p.len.toNat ≠ 0 → p.src.toNat + p.len.toNat ≤ 65536 → p.dst.toNat + p.len.toNat ≤ 65536 →
      ∃ t, exec (.subst k) s = .next t ∧
        Succeeds s t p.dst.toNat
          ((List.range p.len.toNat).map fun i =>
            (match k with | .c => Config.tables.sboxC | .ci => Config.tables.sboxCI | .h => Config.tables.sboxH)
              (s.byteAt (p.src.toNat + i))) 0

/-- ROTROW (R113): the row at SRC rotated by IMM8 modulo LEN, towards index 0 when forward. -/
def Obligations.RotrowCompletes : Prop :=
  ∀ (k : Byte) (d : Dir) (s : State),
    let p := s.snapshot
    let n := p.len.toNat
    n ≠ 0 → p.src.toNat + n ≤ 65536 → p.dst.toNat + n ≤ 65536 →
      ∃ t, exec (.rotrow k d) s = .next t ∧
        Succeeds s t p.dst.toNat
          ((List.range n).map fun i => s.byteAt (p.src.toNat +
            match d with | .fwd => (i + k.toNat) % n | .bwd => (i + n - k.toNat % n) % n)) 0

/-- SHROWS (R114): row `r` of the state at SRC rotated by `r` positions. -/
def Obligations.ShrowsCompletes : Prop :=
  ∀ (o : Order) (d : Dir) (s : State),
    let p := s.snapshot
    let O := o.side
    p.src.toNat + O * O ≤ 65536 → p.dst.toNat + O * O ≤ 65536 →
      ∃ t, exec (.shrows o d) s = .next t ∧
        Succeeds s t p.dst.toNat
          ((List.range (O * O)).map fun q => s.byteAt (p.src.toNat + (q / O * O +
            match d with | .fwd => (q % O + q / O) % O | .bwd => (q % O + O - q / O) % O))) 0

/-- MIXCOL (R115): output byte `i·O + j` is row `i` of the matrix times column `j` of the state at SRC, under the modulus
in IMM8. A MIXCOL whose matrix has another order completes with BAD_SELECT. -/
def Obligations.MixcolCompletes : Prop :=
  ∀ (o : Order) (k : MixTable) (m : Byte) (s : State),
    let p := s.snapshot
    let x := fun i => s.byteAt (p.src.toNat + i)
    (k.order ≠ o → ∃ t, exec (.mixcol o k m) s = .next t ∧ FailsWith s t .badSelect) ∧
      (k.order = o → p.src.toNat + o.side * o.side ≤ 65536 → p.dst.toNat + o.side * o.side ≤ 65536 →
        ∃ t bytes, exec (.mixcol o k m) s = .next t ∧ Succeeds s t p.dst.toNat bytes 0 ∧
          bytes.length = o.side * o.side ∧
          match k with
          | .cs => ∀ i j : Fin 4, bytes.getD (4 * i.val + j.val) 0 =
              gfMul (Config.tables.mixCS i 0) (x j.val) m ^^^ gfMul (Config.tables.mixCS i 1) (x (4 + j.val)) m ^^^
                gfMul (Config.tables.mixCS i 2) (x (8 + j.val)) m ^^^ gfMul (Config.tables.mixCS i 3) (x (12 + j.val)) m
          | .cf => ∀ i j : Fin 4, bytes.getD (4 * i.val + j.val) 0 =
              gfMul (Config.tables.mixCF i 0) (x j.val) m ^^^ gfMul (Config.tables.mixCF i 1) (x (4 + j.val)) m ^^^
                gfMul (Config.tables.mixCF i 2) (x (8 + j.val)) m ^^^ gfMul (Config.tables.mixCF i 3) (x (12 + j.val)) m
          | .hs => ∀ i j : Fin 8, bytes.getD (8 * i.val + j.val) 0 =
              gfMul (Config.tables.mixHS i 0) (x j.val) m ^^^ gfMul (Config.tables.mixHS i 1) (x (8 + j.val)) m ^^^
                gfMul (Config.tables.mixHS i 2) (x (16 + j.val)) m ^^^ gfMul (Config.tables.mixHS i 3) (x (24 + j.val)) m ^^^
                gfMul (Config.tables.mixHS i 4) (x (32 + j.val)) m ^^^ gfMul (Config.tables.mixHS i 5) (x (40 + j.val)) m ^^^
                gfMul (Config.tables.mixHS i 6) (x (48 + j.val)) m ^^^ gfMul (Config.tables.mixHS i 7) (x (56 + j.val)) m)

/-- ADDB (R116): the XOR of the regions at SRC and KEY. -/
def Obligations.AddbCompletes : Prop :=
  ∀ s : State,
    let p := s.snapshot
    let n := p.len.toNat
    n ≠ 0 → p.src.toNat + n ≤ 65536 → p.key.toNat + n ≤ 65536 → p.dst.toNat + n ≤ 65536 →
      ∃ t, exec .addb s = .next t ∧
        Succeeds s t p.dst.toNat
          ((List.range n).map fun i => s.byteAt (p.src.toNat + i) ^^^ s.byteAt (p.key.toNat + i)) 0

/-- ADDBT (R117): the XOR over the overlap of the two regions; the rest of the one at SRC is copied. KLEN may be 0, with any
KEY. -/
def Obligations.AddbtCompletes : Prop :=
  ∀ s : State,
    let p := s.snapshot
    let n := p.len.toNat
    n ≠ 0 → p.src.toNat + n ≤ 65536 → (p.klen.toNat = 0 ∨ p.key.toNat + p.klen.toNat ≤ 65536) →
      p.dst.toNat + n ≤ 65536 →
      ∃ t, exec .addbt s = .next t ∧
        Succeeds s t p.dst.toNat
          ((List.range n).map fun i =>
            if i < p.klen.toNat then s.byteAt (p.src.toNat + i) ^^^ s.byteAt (p.key.toNat + i)
            else s.byteAt (p.src.toNat + i)) 0

/-- XKEYC (R150): the 240 bytes of the schedule of the key at KEY. -/
def Obligations.XkeycCompletes : Prop :=
  ∀ s : State,
    let p := s.snapshot
    KeyLength p.klen.toNat → p.key.toNat + p.klen.toNat ≤ 65536 → p.dst.toNat + 240 ≤ 65536 →
      ∃ t bytes, exec .xkeyc s = .next t ∧ Succeeds s t p.dst.toNat bytes 0 ∧ bytes.length = 240 ∧
        bytes = expandCipherKey Config.tables (s.readBytes p.key.toNat p.klen.toNat)

/-- XKEYH (R151): the 704 bytes of the schedule of the seed at SRC. -/
def Obligations.XkeyhCompletes : Prop :=
  ∀ s : State,
    let p := s.snapshot
    p.src.toNat + 64 ≤ 65536 → p.dst.toNat + 704 ≤ 65536 →
      ∃ t bytes, exec .xkeyh s = .next t ∧ Succeeds s t p.dst.toNat bytes 0 ∧ bytes.length = 704 ∧
        bytes = expandHashKey Config.tables (s.readBytes p.src.toNat 64)

/-- XAEENCR and XAEDECR (R170, R171): one round of the 16-byte state at SRC with the round key at KEY. -/
def Obligations.XaeRoundsComplete : Prop :=
  ∀ s : State,
    let p := s.snapshot
    let x := s.readBytes p.src.toNat 16
    let k := s.readBytes p.key.toNat 16
    p.src.toNat + 16 ≤ 65536 → p.key.toNat + 16 ≤ 65536 → p.dst.toNat + 16 ≤ 65536 →
      (∃ t bytes, exec .xaeencr s = .next t ∧ Succeeds s t p.dst.toNat bytes 0 ∧ bytes.length = 16 ∧
        bytes = addBytes (mixColumns (shiftRows (substitute Config.tables.sboxC x) 4 .fwd) 4 Config.tables.mixCS
          Config.tables.modC) k) ∧
      ∃ t bytes, exec .xaedecr s = .next t ∧ Succeeds s t p.dst.toNat bytes 0 ∧ bytes.length = 16 ∧
        bytes = substitute Config.tables.sboxCI (shiftRows (mixColumns (addBytes x k) 4 Config.tables.mixCF
          Config.tables.modC) 4 .bwd)

/-- XAEENC (R172): the ciphertext of the non-empty plaintext at SRC, `16·⌈LEN / 16⌉ + 1` bytes. -/
def Obligations.XaeencCompletes : Prop :=
  ∀ s : State,
    let p := s.snapshot
    let n := p.len.toNat
    let N := 16 * ((n + 15) / 16) + 1
    KeyLength p.klen.toNat → n ≠ 0 → p.src.toNat + n ≤ 65536 → p.key.toNat + p.klen.toNat ≤ 65536 →
      p.dst.toNat + N ≤ 65536 →
      ∃ t bytes, exec .xaeenc s = .next t ∧ Succeeds s t p.dst.toNat bytes 0 ∧ bytes.length = N ∧
        bytes = xaeEncrypt Config.tables (s.readBytes p.src.toNat n) (s.readBytes p.key.toNat p.klen.toNat)

/-- XAEDEC (R173): the plaintext of the ciphertext at SRC. It writes `LEN - 1 - L` bytes, and the `L` bytes after them keep
their values (U12: `Succeeds.kept`). -/
def Obligations.XaedecCompletes : Prop :=
  ∀ s : State,
    let p := s.snapshot
    let n := p.len.toNat
    let L := (s.byteAt (p.src.toNat + n - 1)).toNat
    KeyLength p.klen.toNat → 17 ≤ n → (n - 1) % 16 = 0 → p.src.toNat + n ≤ 65536 →
      p.key.toNat + p.klen.toNat ≤ 65536 → p.dst.toNat + (n - 1) ≤ 65536 → L ≤ 15 →
      ∃ t bytes, exec .xaedec s = .next t ∧ Succeeds s t p.dst.toNat bytes 0 ∧ bytes.length = n - 1 - L ∧
        bytes = xaeDecrypt Config.tables (s.readBytes p.src.toNat n) (s.readBytes p.key.toNat p.klen.toNat)

/-- XWHRND and XWHCMP (R200, R201): one round, and one compression of the block at SRC under the chaining value at KEY. -/
def Obligations.XwhRoundAndCompressionComplete : Prop :=
  ∀ s : State,
    let p := s.snapshot
    let x := s.readBytes p.src.toNat 64
    let k := s.readBytes p.key.toNat 64
    p.src.toNat + 64 ≤ 65536 → p.key.toNat + 64 ≤ 65536 → p.dst.toNat + 64 ≤ 65536 →
      (∃ t bytes, exec .xwhrnd s = .next t ∧ Succeeds s t p.dst.toNat bytes 0 ∧ bytes.length = 64 ∧
        bytes = addBytes (mixColumns (shiftRows (substitute Config.tables.sboxH x) 8 .fwd) 8 Config.tables.mixHS
          Config.tables.modH) k) ∧
      ∃ t bytes, exec .xwhcmp s = .next t ∧ Succeeds s t p.dst.toNat bytes 0 ∧ bytes.length = 64 ∧
        bytes = compress Config.tables k x

/-- XWHHASH (R202): the 64-byte digest of the message at SRC, of any length from 0. -/
def Obligations.XwhhashCompletes : Prop :=
  ∀ s : State,
    let p := s.snapshot
    let n := p.len.toNat
    (n = 0 ∨ p.src.toNat + n ≤ 65536) → p.dst.toNat + 64 ≤ 65536 →
      ∃ t bytes, exec .xwhhash s = .next t ∧ Succeeds s t p.dst.toNat bytes 0 ∧ bytes.length = 64 ∧
        bytes = xwhHash Config.tables (s.readBytes p.src.toNat n)

/-! ### Host accesses -/

/-- R94 and R216: a write of `v` to CMD launches it, or is dropped while a command runs. -/
def Obligations.CmdWriteLaunchesOrIsDropped : Prop :=
  ∀ (s : State) (v : Word) (rest : List Move),
    s.agenda = .access ⟨0x004, .word, .write v⟩ :: rest →
      (s.busy = false → step s = .next { s with
        cmd := v
        snapshot := { cmd := v, src := s.src, dst := s.dst, len := s.len, key := s.key, klen := s.klen, opa := s.opa,
                      opb := s.opb }
        busy := true
        done := false
        errcode := 0
        agenda := rest
        responses := .okay :: s.responses }) ∧
      (s.busy = true → step s = .next { s with drop := true, agenda := rest, responses := .okay :: s.responses })

/-- R30: a write of `v` to STATUS clears each of DONE, ERR, DROP and LOCKV whose bit in `v` is 1, and nothing else. -/
def Obligations.StatusWriteClearsFlags : Prop :=
  ∀ (s : State) (v : Word) (rest : List Move),
    s.agenda = .access ⟨0x008, .word, .write v⟩ :: rest →
      step s = .next { s with
        done := if v.getLsbD 1 then false else s.done
        err := if v.getLsbD 2 then false else s.err
        drop := if v.getLsbD 3 then false else s.drop
        lockv := if v.getLsbD 4 then false else s.lockv
        agenda := rest
        responses := .okay :: s.responses }

/-- R31: a write of `v` to CTRL stores `v[0]` into IE, unless `v[1] = 1`, when it is a soft reset (R32) and IE ends 0. CTRL
reads back IE in bit 0 and 0 elsewhere, and IE gates IRQ. -/
def Obligations.CtrlWriteStoresIe : Prop :=
  ∀ (s : State) (v : Word) (rest : List Move),
    s.agenda = .access ⟨0x00C, .word, .write v⟩ :: rest →
      (v.getLsbD 1 = false → step s = .next { s with
        ie := v.getLsbD 0, agenda := rest, responses := .okay :: s.responses }) ∧
      (v.getLsbD 1 = true → Resets s.nextMove ∧ ∃ t, step s = .next t ∧ t.ie = false ∧ t.busy = false ∧
        ∀ r : Reg, r ≠ .id → t.readReg r = 0) ∧
      ∀ t, step s = .next t → t.readReg .ctrl = (if t.ie then 1 else 0) ∧ (t.irq = true ↔ t.ie = true ∧ t.done = true)

/-- R241: a reset, by the platform or by a CTRL write with bit 1 set, at any time, leaves in one step every register at its
reset value, IRQ at 0, nothing of the launch snapshot (what is left is the same whatever state was reset), and the engine
idle; and the next host write to CMD launches. -/
def Obligations.ResetSetsEveryRegister : Prop :=
  ∃ left : Snapshot, ∀ s : State, Resets s.nextMove → ∃ t, step s = .next t ∧
    (∀ r : Reg, t.readReg r = if r = .id then 0x58434F01 else 0) ∧ t.irq = false ∧ t.busy = false ∧ t.done = false ∧
      t.err = false ∧ t.drop = false ∧ t.lockv = false ∧ t.errcode = 0 ∧ t.ie = false ∧ t.snapshot = left ∧
      engineTurn t = .next t ∧ ∀ v, t.hostAccess ⟨0x004, .word, .write v⟩ = (t.launch v).respond .okay

/-- R38: an aligned 32-bit access to 0x034 to 0xFFC reads 0 or is ignored, with no other effect. -/
def Obligations.ReservedOffsetsDoNothing : Prop :=
  ∀ (s : State) (o : BitVec 17) (op : BusOp) (rest : List Move),
    s.agenda = .access ⟨o, .word, op⟩ :: rest → 0x034 ≤ o.toNat → o.toNat ≤ 0xFFC → o.toNat % 4 = 0 →
      step s = .next { s with
        agenda := rest
        responses := (match op with | .read => BusResponse.data 0 | .write _ => BusResponse.okay) :: s.responses }

/-- R218: a host access to an unmapped offset, a misaligned access, or a non-32-bit access to the register block gets a bus
error and changes no state. For a misaligned access to the MEM window while BUSY = 1 this is the model's reading
(notes/assumptions/7.md): R66 alone would lock it out instead. -/
def Obligations.BusErrorsChangeNothing : Prop :=
  ∀ (s : State) (a : BusAccess) (rest : List Move),
    s.agenda = .access a :: rest →
      ((a.offset.toNat < 0x1000 ∧ (a.size ≠ .word ∨ a.offset.toNat % 4 ≠ 0)) ∨
        (0x1000 ≤ a.offset.toNat ∧ a.offset.toNat < 0x10000) ∨
        (0x10000 ≤ a.offset.toNat ∧ a.offset.toNat % a.size.bytes ≠ 0)) →
      step s = .next { s with agenda := rest, responses := .busError :: s.responses }

/-- R217, with R66's effect: while BUSY = 1, an aligned access to the MEM window sets LOCKV, reads 0 or is dropped, and gets
OKAY; MEM and the running command are not affected. -/
def Obligations.WindowIsLockedWhileBusy : Prop :=
  ∀ (s : State) (a : BusAccess) (rest : List Move),
    s.agenda = .access a :: rest → s.busy = true → 0x10000 ≤ a.offset.toNat → a.offset.toNat % a.size.bytes = 0 →
      step s = .next { s with
        lockv := true
        agenda := rest
        responses := (match a.op with | .read => BusResponse.data 0 | .write _ => BusResponse.okay) :: s.responses }

/-- R64: while BUSY = 0, an aligned read of the MEM window returns the bytes little-endian, and an aligned write of `v` stores
`v[8i+7:8i]` at index `i` and leaves every other byte and register alone. -/
def Obligations.WindowIsLittleEndian : Prop :=
  ∀ (s : State) (a : BusAccess) (rest : List Move),
    s.agenda = .access a :: rest → s.busy = false → 0x10000 ≤ a.offset.toNat → a.offset.toNat % a.size.bytes = 0 →
      let m := a.offset.toNat - 0x10000
      let n := a.size.bytes
      (a.op = .read → step s = .next { s with
        agenda := rest
        responses := .data (BitVec.ofNat 32 (∑ i ∈ Finset.range n, (s.byteAt (m + i)).toNat * 256 ^ i)) ::
          s.responses }) ∧
      ∀ v : Word, a.op = .write v → ∃ t, step s = .next t ∧
        (∀ i < n, t.byteAt (m + i) = v.extractLsb' (8 * i) 8) ∧
        (∀ x, x < m ∨ m + n ≤ x → t.byteAt x = s.byteAt x) ∧
        t = { s with mem := t.mem, agenda := rest, responses := .okay :: s.responses }

/-- The layout of STATUS (R24 to R29): each flag at its bit, ERRCODE in [15:8], and 0 in [7:5] and [31:16]. -/
def Obligations.StatusLayout : Prop :=
  ∀ s : State,
    let w := s.readReg .status
    w.getLsbD 0 = s.busy ∧ w.getLsbD 1 = s.done ∧ w.getLsbD 2 = s.err ∧ w.getLsbD 3 = s.drop ∧ w.getLsbD 4 = s.lockv ∧
      w.extractLsb' 5 3 = 0 ∧ w.extractLsb' 8 8 = s.errcode ∧ w.extractLsb' 16 16 = 0

/-- R22's map, offset by offset (with R21, R23, R31, R33 to R37 and R69): a 32-bit read at each of the thirteen offsets answers
the register that stands there (for STATUS the word whose layout StatusLayout gives) and has no side effect; a write to an
argument register stores all 32 bits and touches nothing else; a write to ID, RESULT or OUTLEN is ignored. The writes at the
other three offsets have statements of their own. -/
def Obligations.RegisterAccess : Prop :=
  ∀ (s : State) (rest : List Move),
    (∀ row ∈ ([(0x000, 0x58434F01), (0x004, s.cmd), (0x008, s.readReg .status), (0x00C, if s.ie then 1 else 0),
        (0x010, s.src), (0x014, s.dst), (0x018, s.len), (0x01C, s.key), (0x020, s.klen), (0x024, s.opa), (0x028, s.opb),
        (0x02C, s.result), (0x030, s.outlen)] : List (BitVec 17 × Word)),
      s.agenda = .access ⟨row.1, .word, .read⟩ :: rest →
        step s = .next { s with agenda := rest, responses := .data row.2 :: s.responses }) ∧
    ∀ v : Word,
      (∀ row ∈ ([(0x010, { s with src := v }), (0x014, { s with dst := v }), (0x018, { s with len := v }),
          (0x01C, { s with key := v }), (0x020, { s with klen := v }), (0x024, { s with opa := v }),
          (0x028, { s with opb := v }), (0x000, s), (0x02C, s), (0x030, s)] : List (BitVec 17 × State)),
        s.agenda = .access ⟨row.1, .word, .write v⟩ :: rest →
          step s = .next { row.2 with agenda := rest, responses := .okay :: s.responses })

/-! ### Reset and MEM -/

/-- R242: a reset while BUSY = 1. Compared with the completion that then never happens: no flag is set and RESULT and OUTLEN
are 0; if the checks would have failed MEM is unchanged; otherwise the bytes outside the output region are unchanged, and
each byte inside is the free value of that abort (the form of the free value is the model's: notes/assumptions/3.md). -/
def Obligations.ResetAbortsTheCommand : Prop :=
  ∀ s t u : State, Resets s.nextMove → s.nextMove ≠ .powerOn → s.busy = true → step s = .next t →
    completion s = .next u →
      t.busy = false ∧ t.done = false ∧ t.err = false ∧ t.result = 0 ∧ t.outlen = 0 ∧
        (u.errcode ≠ 0 → t.mem = s.mem) ∧
        (u.errcode = 0 → ∃ i, decode s.snapshot.cmd = .ok i ∧
          (∀ a, ¬ (outputRegion i s.snapshot).Has a → t.byteAt a = s.byteAt a) ∧
          ∀ a, (outputRegion i s.snapshot).Has a → t.byteAt a = Config.abortByte s.aborts a)

/-- R243: a reset with no command running changes no MEM byte; and R244: power-on makes every MEM byte the free byte of a
new power-on (the form of the free byte is the model's: notes/assumptions/2.md). -/
def Obligations.ResetAndPowerOnMem : Prop :=
  ∀ s t : State, step s = .next t →
    (Resets s.nextMove → s.nextMove ≠ .powerOn → s.busy = false → t.mem = s.mem ∧ ∀ a, t.byteAt a = s.byteAt a) ∧
      (s.nextMove = .powerOn → ∀ a, t.byteAt a = Config.powerOnByte (s.powerOns + 1) a)

/-! ### Rules of the whole machine -/

/-- The only ways a MEM byte changes in a step: the completion of a command that succeeds, inside its output region; a window
write that covers it while BUSY = 0; a reset that aborts a command, inside that command's output region; power-on
(R61, R64, R66, R68, R242 to R244). -/
def Obligations.MemChangesOnlyByTheRules : Prop :=
  ∀ (s t : State) (a : Nat), step s = .next t → t.byteAt a ≠ s.byteAt a →
    (s.nextMove = .engine ∧ s.busy = true ∧ t.errcode = 0 ∧
        ∃ i, decode s.snapshot.cmd = .ok i ∧ (outputRegion i s.snapshot).Has a) ∨
      (∃ acc v, s.nextMove = .access acc ∧ ReachesMem acc ∧ acc.op = .write v ∧ s.busy = false ∧
        acc.offset.toNat - 0x10000 ≤ a ∧ a < acc.offset.toNat - 0x10000 + acc.size.bytes) ∨
      (Resets s.nextMove ∧ s.busy = true ∧
        ∃ i, decode s.snapshot.cmd = .ok i ∧ (outputRegion i s.snapshot).Has a) ∨
      s.nextMove = .powerOn

/-- R23 and R24 over every step: BUSY rises only by a CMD write while idle and falls only by a completion or a reset, and CMD
changes only by such a write or a reset. -/
def Obligations.BusyAndCmdLifecycle : Prop :=
  ∀ s t : State, step s = .next t →
    (s.busy = false → t.busy = true → ∃ v, WritesReg s.nextMove .cmd v ∧ t.cmd = v) ∧
      (s.busy = true → t.busy = false → s.nextMove = .engine ∨ Resets s.nextMove) ∧
      (t.cmd ≠ s.cmd → (s.busy = false ∧ ∃ v, WritesReg s.nextMove .cmd v ∧ t.cmd = v) ∨ Resets s.nextMove)

/-- R26: what sets ERR, what leaves it, what clears it; it is sticky. -/
def Obligations.ErrIsSticky : Prop :=
  ∀ s t : State, step s = .next t →
    (s.nextMove = .engine → s.busy = true → t.err = (s.err || decide (t.errcode ≠ 0))) ∧
      (∀ v, WritesReg s.nextMove .cmd v → t.err = s.err) ∧
      (∀ v, WritesReg s.nextMove .status v → v.getLsbD 2 = true → t.err = false) ∧
      (Resets s.nextMove → t.err = false) ∧
      (t.err ≠ s.err → (s.nextMove = .engine ∧ s.busy = true) ∨
        (∃ v, WritesReg s.nextMove .status v ∧ v.getLsbD 2 = true) ∨ Resets s.nextMove)

/-- R27: what sets DROP, what clears it, and that nothing else changes it. Beside it the same of LOCKV (R28), where a host
access to the window means an aligned one: that a misaligned access while BUSY = 1 leaves LOCKV, as the last clause says, is
the model's reading (notes/assumptions/7.md), not R28. -/
def Obligations.DropAndLockvLifecycle : Prop :=
  ∀ s t : State, step s = .next t →
    (∀ v, WritesReg s.nextMove .cmd v → s.busy = true → t.drop = true) ∧
      (∀ v, WritesReg s.nextMove .status v → v.getLsbD 3 = true → t.drop = false) ∧
      (Resets s.nextMove → t.drop = false ∧ t.lockv = false) ∧
      (t.drop ≠ s.drop → (s.busy = true ∧ ∃ v, WritesReg s.nextMove .cmd v) ∨
        (∃ v, WritesReg s.nextMove .status v ∧ v.getLsbD 3 = true) ∨ Resets s.nextMove) ∧
      (∀ a, s.nextMove = .access a → ReachesMem a → s.busy = true → t.lockv = true) ∧
      (∀ v, WritesReg s.nextMove .status v → v.getLsbD 4 = true → t.lockv = false) ∧
      (t.lockv ≠ s.lockv → (s.busy = true ∧ ∃ a, s.nextMove = .access a ∧ ReachesMem a) ∨
        (∃ v, WritesReg s.nextMove .status v ∧ v.getLsbD 4 = true) ∨ Resets s.nextMove)

/-- R25, and R29's rule beside it: what sets DONE and what clears it; a launch and a reset clear ERRCODE too, and no other
host move changes it. -/
def Obligations.DoneAndErrcodeLifecycle : Prop :=
  ∀ s t : State, step s = .next t →
    (s.nextMove = .engine → s.busy = true → t.done = true) ∧
      (∀ v, WritesReg s.nextMove .cmd v → s.busy = false → t.done = false ∧ t.errcode = 0) ∧
      (∀ v, WritesReg s.nextMove .status v → v.getLsbD 1 = true → t.done = false) ∧
      (Resets s.nextMove → t.done = false ∧ t.errcode = 0) ∧
      (t.done ≠ s.done → (s.nextMove = .engine ∧ s.busy = true) ∨
        (s.busy = false ∧ ∃ v, WritesReg s.nextMove .cmd v) ∨
        (∃ v, WritesReg s.nextMove .status v ∧ v.getLsbD 1 = true) ∨ Resets s.nextMove) ∧
      (t.errcode ≠ s.errcode → (s.nextMove = .engine ∧ s.busy = true) ∨
        (s.busy = false ∧ ∃ v, WritesReg s.nextMove .cmd v) ∨ Resets s.nextMove)

/-- R36: a completion writes RESULT, with GFMUL's product or with 0; a reset sets it to 0; nothing else changes it, and
nothing else changes OUTLEN. -/
def Obligations.ResultIsWrittenByCompletions : Prop :=
  ∀ s t : State, step s = .next t →
    (s.nextMove = .engine → s.busy = true →
      (∀ m, decode s.snapshot.cmd = .ok (.gfmul m) →
        t.result = (gfMul (s.snapshot.opa.extractLsb' 0 8) (s.snapshot.opb.extractLsb' 0 8) m).setWidth 32) ∧
      ((∀ m, decode s.snapshot.cmd ≠ .ok (.gfmul m)) → t.result = 0)) ∧
    (Resets s.nextMove → t.result = 0 ∧ t.outlen = 0) ∧
    (t.result ≠ s.result ∨ t.outlen ≠ s.outlen → (s.nextMove = .engine ∧ s.busy = true) ∨ Resets s.nextMove)

/-- R219 and R220: IRQ is IE and DONE in every state; it falls by a STATUS write with bit 1 set, by a launch and by a reset; a
completion with IE set raises it, and so does a CTRL write that sets IE while DONE is set, and nothing else does. -/
def Obligations.IrqRisesAndFalls : Prop :=
  (∀ s : State, s.irq = true ↔ s.ie = true ∧ s.done = true) ∧
  ∀ s t : State, step s = .next t →
    (((∃ v, WritesReg s.nextMove .status v ∧ v.getLsbD 1 = true) ∨
        (s.busy = false ∧ ∃ v, WritesReg s.nextMove .cmd v) ∨ Resets s.nextMove) → t.irq = false) ∧
      (s.nextMove = .engine → s.busy = true → s.ie = true → t.irq = true) ∧
      (∀ v, WritesReg s.nextMove .ctrl v → v.getLsbD 1 = false → v.getLsbD 0 = true → s.done = true → t.irq = true) ∧
      (s.irq = false → t.irq = true →
        (s.nextMove = .engine ∧ s.busy = true ∧ s.ie = true) ∨
          (s.done = true ∧ ∃ v, WritesReg s.nextMove .ctrl v ∧ v.getLsbD 0 = true))

/-- R249: while BUSY = 1, a write to an argument register or to CTRL.IE takes effect on the register at once, and making it
before or after the completion ends in the same state. -/
def Obligations.ArgumentWritesDoNotReachTheRunningCommand : Prop :=
  ∀ (s : State) (r : Reg) (v : Word) (w : Move) (s1 s2 u1 u2 : State),
    s.busy = true → WritesReg w r v →
      (r ∈ [Reg.src, .dst, .len, .key, .klen, .opa, .opb] ∨ (r = .ctrl ∧ v.getLsbD 1 = false)) →
      step { s with agenda := [w, .engine] } = .next s1 → step s1 = .next s2 →
      step { s with agenda := [.engine, w] } = .next u1 → step u1 = .next u2 →
        (r ≠ .ctrl → s1.readReg r = v) ∧ (r = .ctrl → s1.ie = v.getLsbD 0) ∧ s1.busy = true ∧ s2 = u2

/-- The machine right after reset meets the invariant. -/
def Obligations.ResetMeetsTheInvariant : Prop := State.reset.Inv

/-- Every step keeps the invariant, from every state that meets it. -/
def Obligations.EveryStepKeepsTheInvariant : Prop :=
  ∀ s t : State, s.Inv → step s = .next t → t.Inv

/-! ### The pure functions -/

/-- The polynomial over GF(2) whose coefficient of `x^i` is bit `i` of the byte (R101). -/
noncomputable def Sys2Proof.bytePoly (v : Byte) : Polynomial (ZMod 2) :=
  ∑ i ∈ Finset.range 8, if v.getLsbD i then Polynomial.X ^ i else 0

/-- R101: `gf_mul(a, b, m)` is the product of the polynomials of `a` and `b`, reduced modulo `x^8 + m(x)`. -/
def Obligations.GfMulIsThePolynomialProduct : Prop :=
  ∀ a b m : Byte, (Polynomial.X ^ 8 + bytePoly m) ∣ bytePoly a * bytePoly b - bytePoly (gfMul a b m)

/-- R101: `gf_mul` is commutative, distributes over XOR in each argument, and has 0 and 1 as zero and identity; with modulus
0 its bit `k` is the parity of the pairs of set bits `i` of `a` and `k - i` of `b`. -/
def Obligations.GfMulAlgebra : Prop :=
  ∀ a b c m : Byte, gfMul a b m = gfMul b a m ∧ gfMul (a ^^^ b) c m = gfMul a c m ^^^ gfMul b c m ∧
    gfMul a (b ^^^ c) m = gfMul a b m ^^^ gfMul a c m ∧ gfMul 0 b m = 0 ∧ gfMul 1 b m = b ∧
    ∀ k < 8, (gfMul a b 0).getLsbD k =
      decide (((List.range (k + 1)).filter fun i => a.getLsbD i && b.getLsbD (k - i)).length % 2 = 1)

/-- R103: the two index formulas of `rot` for a row of at least one byte, and that the two directions undo each other. -/
def Obligations.RotationFormulas : Prop :=
  ∀ (row : List Byte) (k : Nat), row ≠ [] →
    (∀ d, (rotateRow row k d).length = row.length) ∧
      (∀ i < row.length, (rotateRow row k .fwd).getD i 0 = row.getD ((i + k % row.length) % row.length) 0) ∧
      (∀ i < row.length,
        (rotateRow row k .bwd).getD i 0 = row.getD ((i + row.length - k % row.length) % row.length) 0) ∧
      rotateRow (rotateRow row k .fwd) k .bwd = row ∧ rotateRow (rotateRow row k .bwd) k .fwd = row

/-- R108: `shift_rows` backward undoes `shift_rows` forward, for both orders, and `add` undoes itself; the inverse S-box undoes
the forward one under tables that meet R40, and the fold matrix the spread matrix under tables that meet R42. -/
def Obligations.TransformsUndo : Prop :=
  (∀ (o : Order) (x : List Byte), x.length = o.side * o.side →
    shiftRows (shiftRows x o.side .fwd) o.side .bwd = x ∧ shiftRows (shiftRows x o.side .bwd) o.side .fwd = x) ∧
    (∀ a b : List Byte, a.length = b.length → addBytes (addBytes a b) b = a) ∧
    (∀ T : Tables, SboxesInvert T → ∀ x : List Byte, substitute T.sboxCI (substitute T.sboxC x) = x) ∧
    ∀ T : Tables, MatricesInvert T → ∀ x : List Byte, x.length = 16 →
      mixColumns (mixColumns x 4 T.mixCS T.modC) 4 T.mixCF T.modC = x

/-- R160: `pad` appends the byte `0x01` XOR the XOR of all bytes, `(-len) mod O²` times. -/
def Obligations.PadAppendsTheChecksum : Prop :=
  ∀ (buf : List Byte) (o : Order),
    let block := o.side * o.side
    let n := (pad buf block).2
    n < block ∧ (buf.length + n) % block = 0 ∧
      (pad buf block).1 = buf ++ List.replicate n (0x01 ^^^ buf.foldr (fun x f => x ^^^ f) 0)

/-- R163: the inverse round is its four steps in order; under tables that meet R40 and R42, it undoes the forward round with
the same key. -/
def Obligations.InverseRoundUndoesRound : Prop :=
  ∀ (T : Tables) (x k : List Byte), x.length = 16 → k.length = 16 →
    decRound T x k = substitute T.sboxCI (shiftRows (mixColumns (addBytes x k) 4 T.mixCF T.modC) 4 .bwd) ∧
      (Invertible T → decRound T (encRound T x k) k = x)

/-- R167: under tables that meet R40 and R42, decryption undoes encryption, for every non-empty plaintext and every accepted
key. -/
def Obligations.DecryptionUndoesEncryption : Prop :=
  ∀ (T : Tables) (pt key : List Byte), Invertible T → pt ≠ [] → KeyLength key.length →
    xaeDecrypt T (xaeEncrypt T pt key) key = pt

/-- R164: block `b` of the ciphertext is block `b` of the padded plaintext alone, through 15 rounds with the 15 round keys in
order; the last byte is the pad count, and there are `16·⌈len / 16⌉ + 1` bytes. R165: for any ciphertext of whole blocks and a
marker byte `L` of at most 15, made by `xae_encrypt` or not, the plaintext has `16·blocks - L` bytes, which are those of each
block alone through 15 inverse rounds with the round keys 14 down to 0. -/
def Obligations.CiphertextBlocks : Prop :=
  (∀ (T : Tables) (pt key : List Byte), KeyLength key.length →
    let P := (pad pt 16).1
    let L := (pad pt 16).2
    let C := xaeEncrypt T pt key
    let KS := expandCipherKey T key
    C.length = P.length + 1 ∧ C.length = 16 * ((pt.length + 15) / 16) + 1 ∧ L ≤ 15 ∧
      C.getD P.length 0 = BitVec.ofNat 8 L ∧
      ∀ (b : Nat) (xs : Nat → List Byte), b < P.length / 16 → xs 0 = slice P (16 * b) 16 →
        (∀ i < 15, xs (i + 1) = encRound T (xs i) (slice KS (16 * i) 16)) → slice C (16 * b) 16 = xs 15) ∧
  ∀ (T : Tables) (ct key : List Byte) (blocks : Nat), KeyLength key.length → 1 ≤ blocks → ct.length = 16 * blocks + 1 →
    let L := (ct.getD (16 * blocks) 0).toNat
    let KS := expandCipherKey T key
    L ≤ 15 → (xaeDecrypt T ct key).length = 16 * blocks - L ∧
      ∀ (b : Nat) (xs : Nat → List Byte), b < blocks → xs 0 = slice ct (16 * b) 16 →
        (∀ i < 15, xs (i + 1) = decRound T (xs i) (slice KS (16 * (14 - i)) 16)) →
        ∀ j < 16, 16 * b + j < 16 * blocks - L → (xaeDecrypt T ct key).getD (16 * b + j) 0 = (xs 15).getD j 0

/-- R140: the schedule of a key of 1 to 8 words has 60 words of 4 bytes, which start with the key and go on by the rule for
each index. -/
def Obligations.CipherScheduleRule : Prop :=
  ∀ (T : Tables) (key : List Byte), KeyLength key.length →
    let W := key.length / 4
    let w := fun i => slice (expandCipherKey T key) (4 * i) 4
    (expandCipherKey T key).length = 240 ∧ (∀ i < W, w i = slice key (4 * i) 4) ∧
      ∀ i, W ≤ i → i < 60 →
        w i = addBytes (w (i - W))
          (if i % W = 0 then
            addBytes (substitute T.sboxC (rotateRow (w (i - 1)) 1 .fwd)) [T.rconC (i / W), 0, 0, 0]
          else if 6 < W ∧ i % W = W / 2 then substitute T.sboxC (w (i - 1))
          else w (i - 1))

/-- R142: the schedule of a seed has 11 blocks of 64 bytes; block 0 is the seed, and each next block is one hash round of the
block before with the round constant in its first 8 bytes. -/
def Obligations.HashScheduleRule : Prop :=
  ∀ (T : Tables) (seed : List Byte), seed.length = 64 →
    let K := fun i => slice (expandHashKey T seed) (64 * i) 64
    (expandHashKey T seed).length = 704 ∧ K 0 = seed ∧
      ∀ i, 1 ≤ i → i ≤ 10 →
        K i = addTrunc (mixColumns (shiftRows (substitute T.sboxH (K (i - 1))) 8 .fwd) 8 T.mixHS T.modH)
            (T.rconH i).toList ∧
          K i = hashRound T (K (i - 1)) ((T.rconH i).toList ++ List.replicate 56 0)

/-- R192: `dec_ascii(n)` is the base-10 digits of `n`, most significant first, as ASCII bytes, with no leading zero but for
zero itself. -/
def Obligations.DecAsciiIsTheDecimalText : Prop :=
  ∀ n : Nat, decAscii n ≠ [] ∧ (∀ b ∈ decAscii n, 0x30 ≤ b.toNat ∧ b.toNat ≤ 0x39) ∧
    (decAscii n).foldl (fun v b => 10 * v + (b.toNat - 0x30)) 0 = n ∧
    (n = 0 → decAscii n = [0x30]) ∧ (n ≠ 0 → (decAscii n).getD 0 0 ≠ 0x30)

/-- R193: the digest is the last of the chaining values that start with the IV and take one compression for each 64-byte
block of the padded buffer after it; R194 counts the blocks. -/
def Obligations.DigestIsTheLastChainingValue : Prop :=
  ∀ (T : Tables) (msg : List Byte),
    let buf := T.ivH.toList ++ decAscii msg.length ++ msg
    let P := (pad buf 64).1
    let N := P.length / 64 - 1
    1 ≤ N ∧ N = ((decAscii msg.length).length + msg.length + 63) / 64 ∧ slice P 0 64 = T.ivH.toList ∧
      (xwhHash T msg).length = 64 ∧
      ∀ H : Nat → List Byte, H 0 = T.ivH.toList → (∀ i, 1 ≤ i → i ≤ N → H i = compress T (H (i - 1)) (slice P (64 * i) 64)) →
        xwhHash T msg = H N

/-- R191: the compression is the block XOR the chaining value XOR the block after 11 rounds, round `r` with block `r` of the
schedule of the chaining value; the first round key is that value. -/
def Obligations.CompressionRule : Prop :=
  ∀ (T : Tables) (H B : List Byte), H.length = 64 → B.length = 64 →
    slice (expandHashKey T H) 0 64 = H ∧
      ∀ C : Nat → List Byte, C 0 = B →
        (∀ r < 11, C (r + 1) = hashRound T (C r) (slice (expandHashKey T H) (64 * r) 64)) →
        (compress T H B).length = 64 ∧
          ∀ i < 64, (compress T H B).getD i 0 = B.getD i 0 ^^^ H.getD i 0 ^^^ (C 11).getD i 0
end

