-- ==== Sys2Proof/Laws/State.lean ====
section
/-! SUPPORT. What each update of the state leaves in each field. -/

namespace Sys2Proof.Machine

variable (s : State)

@[simp] theorem State.launch_cmd (v : Word) : (s.launch v).cmd = v := rfl
@[simp] theorem State.launch_src (v : Word) : (s.launch v).src = s.src := rfl
@[simp] theorem State.launch_dst (v : Word) : (s.launch v).dst = s.dst := rfl
@[simp] theorem State.launch_len (v : Word) : (s.launch v).len = s.len := rfl
@[simp] theorem State.launch_key (v : Word) : (s.launch v).key = s.key := rfl
@[simp] theorem State.launch_klen (v : Word) : (s.launch v).klen = s.klen := rfl
@[simp] theorem State.launch_opa (v : Word) : (s.launch v).opa = s.opa := rfl
@[simp] theorem State.launch_opb (v : Word) : (s.launch v).opb = s.opb := rfl
@[simp] theorem State.launch_result (v : Word) : (s.launch v).result = s.result := rfl
@[simp] theorem State.launch_outlen (v : Word) : (s.launch v).outlen = s.outlen := rfl
@[simp] theorem State.launch_ie (v : Word) : (s.launch v).ie = s.ie := rfl
@[simp] theorem State.launch_busy (v : Word) : (s.launch v).busy = true := rfl
@[simp] theorem State.launch_done (v : Word) : (s.launch v).done = false := rfl
@[simp] theorem State.launch_err (v : Word) : (s.launch v).err = s.err := rfl
@[simp] theorem State.launch_drop (v : Word) : (s.launch v).drop = s.drop := rfl
@[simp] theorem State.launch_lockv (v : Word) : (s.launch v).lockv = s.lockv := rfl
@[simp] theorem State.launch_errcode (v : Word) : (s.launch v).errcode = 0 := rfl
@[simp] theorem State.launch_snapshot (v : Word) : (s.launch v).snapshot = s.takeSnapshot v := rfl
@[simp] theorem State.launch_mem (v : Word) : (s.launch v).mem = s.mem := rfl
@[simp] theorem State.launch_powerOns (v : Word) : (s.launch v).powerOns = s.powerOns := rfl
@[simp] theorem State.launch_aborts (v : Word) : (s.launch v).aborts = s.aborts := rfl
@[simp] theorem State.launch_agenda (v : Word) : (s.launch v).agenda = s.agenda := rfl
@[simp] theorem State.launch_responses (v : Word) : (s.launch v).responses = s.responses := rfl

@[simp] theorem State.completeOk_cmd (e : Effect) : (s.completeOk e).cmd = s.cmd := rfl
@[simp] theorem State.completeOk_src (e : Effect) : (s.completeOk e).src = s.src := rfl
@[simp] theorem State.completeOk_dst (e : Effect) : (s.completeOk e).dst = s.dst := rfl
@[simp] theorem State.completeOk_len (e : Effect) : (s.completeOk e).len = s.len := rfl
@[simp] theorem State.completeOk_key (e : Effect) : (s.completeOk e).key = s.key := rfl
@[simp] theorem State.completeOk_klen (e : Effect) : (s.completeOk e).klen = s.klen := rfl
@[simp] theorem State.completeOk_opa (e : Effect) : (s.completeOk e).opa = s.opa := rfl
@[simp] theorem State.completeOk_opb (e : Effect) : (s.completeOk e).opb = s.opb := rfl
@[simp] theorem State.completeOk_result (e : Effect) : (s.completeOk e).result = e.result := rfl
@[simp] theorem State.completeOk_outlen (e : Effect) : (s.completeOk e).outlen = BitVec.ofNat 32 e.bytes.length := rfl
@[simp] theorem State.completeOk_ie (e : Effect) : (s.completeOk e).ie = s.ie := rfl
@[simp] theorem State.completeOk_busy (e : Effect) : (s.completeOk e).busy = false := rfl
@[simp] theorem State.completeOk_done (e : Effect) : (s.completeOk e).done = true := rfl
@[simp] theorem State.completeOk_err (e : Effect) : (s.completeOk e).err = s.err := rfl
@[simp] theorem State.completeOk_drop (e : Effect) : (s.completeOk e).drop = s.drop := rfl
@[simp] theorem State.completeOk_lockv (e : Effect) : (s.completeOk e).lockv = s.lockv := rfl
@[simp] theorem State.completeOk_errcode (e : Effect) : (s.completeOk e).errcode = 0 := rfl
@[simp] theorem State.completeOk_snapshot (e : Effect) : (s.completeOk e).snapshot = s.snapshot := rfl
@[simp] theorem State.completeOk_mem (e : Effect) : (s.completeOk e).mem = Memory.writeBytes s.mem e.addr e.bytes := rfl
@[simp] theorem State.completeOk_powerOns (e : Effect) : (s.completeOk e).powerOns = s.powerOns := rfl
@[simp] theorem State.completeOk_aborts (e : Effect) : (s.completeOk e).aborts = s.aborts := rfl
@[simp] theorem State.completeOk_agenda (e : Effect) : (s.completeOk e).agenda = s.agenda := rfl
@[simp] theorem State.completeOk_responses (e : Effect) : (s.completeOk e).responses = s.responses := rfl

@[simp] theorem State.completeError_cmd (c : Byte) : (s.completeError c).cmd = s.cmd := rfl
@[simp] theorem State.completeError_src (c : Byte) : (s.completeError c).src = s.src := rfl
@[simp] theorem State.completeError_dst (c : Byte) : (s.completeError c).dst = s.dst := rfl
@[simp] theorem State.completeError_len (c : Byte) : (s.completeError c).len = s.len := rfl
@[simp] theorem State.completeError_key (c : Byte) : (s.completeError c).key = s.key := rfl
@[simp] theorem State.completeError_klen (c : Byte) : (s.completeError c).klen = s.klen := rfl
@[simp] theorem State.completeError_opa (c : Byte) : (s.completeError c).opa = s.opa := rfl
@[simp] theorem State.completeError_opb (c : Byte) : (s.completeError c).opb = s.opb := rfl
@[simp] theorem State.completeError_result (c : Byte) : (s.completeError c).result = 0 := rfl
@[simp] theorem State.completeError_outlen (c : Byte) : (s.completeError c).outlen = 0 := rfl
@[simp] theorem State.completeError_ie (c : Byte) : (s.completeError c).ie = s.ie := rfl
@[simp] theorem State.completeError_busy (c : Byte) : (s.completeError c).busy = false := rfl
@[simp] theorem State.completeError_done (c : Byte) : (s.completeError c).done = true := rfl
@[simp] theorem State.completeError_err (c : Byte) : (s.completeError c).err = true := rfl
@[simp] theorem State.completeError_drop (c : Byte) : (s.completeError c).drop = s.drop := rfl
@[simp] theorem State.completeError_lockv (c : Byte) : (s.completeError c).lockv = s.lockv := rfl
@[simp] theorem State.completeError_errcode (c : Byte) : (s.completeError c).errcode = c := rfl
@[simp] theorem State.completeError_snapshot (c : Byte) : (s.completeError c).snapshot = s.snapshot := rfl
@[simp] theorem State.completeError_mem (c : Byte) : (s.completeError c).mem = s.mem := rfl
@[simp] theorem State.completeError_powerOns (c : Byte) : (s.completeError c).powerOns = s.powerOns := rfl
@[simp] theorem State.completeError_aborts (c : Byte) : (s.completeError c).aborts = s.aborts := rfl
@[simp] theorem State.completeError_agenda (c : Byte) : (s.completeError c).agenda = s.agenda := rfl
@[simp] theorem State.completeError_responses (c : Byte) : (s.completeError c).responses = s.responses := rfl

@[simp] theorem State.respond_cmd (r : BusResponse) : (s.respond r).cmd = s.cmd := rfl
@[simp] theorem State.respond_src (r : BusResponse) : (s.respond r).src = s.src := rfl
@[simp] theorem State.respond_dst (r : BusResponse) : (s.respond r).dst = s.dst := rfl
@[simp] theorem State.respond_len (r : BusResponse) : (s.respond r).len = s.len := rfl
@[simp] theorem State.respond_key (r : BusResponse) : (s.respond r).key = s.key := rfl
@[simp] theorem State.respond_klen (r : BusResponse) : (s.respond r).klen = s.klen := rfl
@[simp] theorem State.respond_opa (r : BusResponse) : (s.respond r).opa = s.opa := rfl
@[simp] theorem State.respond_opb (r : BusResponse) : (s.respond r).opb = s.opb := rfl
@[simp] theorem State.respond_result (r : BusResponse) : (s.respond r).result = s.result := rfl
@[simp] theorem State.respond_outlen (r : BusResponse) : (s.respond r).outlen = s.outlen := rfl
@[simp] theorem State.respond_ie (r : BusResponse) : (s.respond r).ie = s.ie := rfl
@[simp] theorem State.respond_busy (r : BusResponse) : (s.respond r).busy = s.busy := rfl
@[simp] theorem State.respond_done (r : BusResponse) : (s.respond r).done = s.done := rfl
@[simp] theorem State.respond_err (r : BusResponse) : (s.respond r).err = s.err := rfl
@[simp] theorem State.respond_drop (r : BusResponse) : (s.respond r).drop = s.drop := rfl
@[simp] theorem State.respond_lockv (r : BusResponse) : (s.respond r).lockv = s.lockv := rfl
@[simp] theorem State.respond_errcode (r : BusResponse) : (s.respond r).errcode = s.errcode := rfl
@[simp] theorem State.respond_snapshot (r : BusResponse) : (s.respond r).snapshot = s.snapshot := rfl
@[simp] theorem State.respond_mem (r : BusResponse) : (s.respond r).mem = s.mem := rfl
@[simp] theorem State.respond_powerOns (r : BusResponse) : (s.respond r).powerOns = s.powerOns := rfl
@[simp] theorem State.respond_aborts (r : BusResponse) : (s.respond r).aborts = s.aborts := rfl
@[simp] theorem State.respond_agenda (r : BusResponse) : (s.respond r).agenda = s.agenda := rfl
@[simp] theorem State.respond_responses (r : BusResponse) : (s.respond r).responses = r :: s.responses := rfl

@[simp] theorem State.clearStatus_cmd (v : Word) : (s.clearStatus v).cmd = s.cmd := rfl
@[simp] theorem State.clearStatus_src (v : Word) : (s.clearStatus v).src = s.src := rfl
@[simp] theorem State.clearStatus_dst (v : Word) : (s.clearStatus v).dst = s.dst := rfl
@[simp] theorem State.clearStatus_len (v : Word) : (s.clearStatus v).len = s.len := rfl
@[simp] theorem State.clearStatus_key (v : Word) : (s.clearStatus v).key = s.key := rfl
@[simp] theorem State.clearStatus_klen (v : Word) : (s.clearStatus v).klen = s.klen := rfl
@[simp] theorem State.clearStatus_opa (v : Word) : (s.clearStatus v).opa = s.opa := rfl
@[simp] theorem State.clearStatus_opb (v : Word) : (s.clearStatus v).opb = s.opb := rfl
@[simp] theorem State.clearStatus_result (v : Word) : (s.clearStatus v).result = s.result := rfl
@[simp] theorem State.clearStatus_outlen (v : Word) : (s.clearStatus v).outlen = s.outlen := rfl
@[simp] theorem State.clearStatus_ie (v : Word) : (s.clearStatus v).ie = s.ie := rfl
@[simp] theorem State.clearStatus_busy (v : Word) : (s.clearStatus v).busy = s.busy := rfl
@[simp] theorem State.clearStatus_done (v : Word) : (s.clearStatus v).done = (s.done && !v.getLsbD 1) := rfl
@[simp] theorem State.clearStatus_err (v : Word) : (s.clearStatus v).err = (s.err && !v.getLsbD 2) := rfl
@[simp] theorem State.clearStatus_drop (v : Word) : (s.clearStatus v).drop = (s.drop && !v.getLsbD 3) := rfl
@[simp] theorem State.clearStatus_lockv (v : Word) : (s.clearStatus v).lockv = (s.lockv && !v.getLsbD 4) := rfl
@[simp] theorem State.clearStatus_errcode (v : Word) : (s.clearStatus v).errcode = s.errcode := rfl
@[simp] theorem State.clearStatus_snapshot (v : Word) : (s.clearStatus v).snapshot = s.snapshot := rfl
@[simp] theorem State.clearStatus_mem (v : Word) : (s.clearStatus v).mem = s.mem := rfl
@[simp] theorem State.clearStatus_powerOns (v : Word) : (s.clearStatus v).powerOns = s.powerOns := rfl
@[simp] theorem State.clearStatus_aborts (v : Word) : (s.clearStatus v).aborts = s.aborts := rfl
@[simp] theorem State.clearStatus_agenda (v : Word) : (s.clearStatus v).agenda = s.agenda := rfl
@[simp] theorem State.clearStatus_responses (v : Word) : (s.clearStatus v).responses = s.responses := rfl

@[simp] theorem State.clearRegisters_cmd : (s.clearRegisters).cmd = 0 := rfl
@[simp] theorem State.clearRegisters_src : (s.clearRegisters).src = 0 := rfl
@[simp] theorem State.clearRegisters_dst : (s.clearRegisters).dst = 0 := rfl
@[simp] theorem State.clearRegisters_len : (s.clearRegisters).len = 0 := rfl
@[simp] theorem State.clearRegisters_key : (s.clearRegisters).key = 0 := rfl
@[simp] theorem State.clearRegisters_klen : (s.clearRegisters).klen = 0 := rfl
@[simp] theorem State.clearRegisters_opa : (s.clearRegisters).opa = 0 := rfl
@[simp] theorem State.clearRegisters_opb : (s.clearRegisters).opb = 0 := rfl
@[simp] theorem State.clearRegisters_result : (s.clearRegisters).result = 0 := rfl
@[simp] theorem State.clearRegisters_outlen : (s.clearRegisters).outlen = 0 := rfl
@[simp] theorem State.clearRegisters_ie : (s.clearRegisters).ie = false := rfl
@[simp] theorem State.clearRegisters_busy : (s.clearRegisters).busy = false := rfl
@[simp] theorem State.clearRegisters_done : (s.clearRegisters).done = false := rfl
@[simp] theorem State.clearRegisters_err : (s.clearRegisters).err = false := rfl
@[simp] theorem State.clearRegisters_drop : (s.clearRegisters).drop = false := rfl
@[simp] theorem State.clearRegisters_lockv : (s.clearRegisters).lockv = false := rfl
@[simp] theorem State.clearRegisters_errcode : (s.clearRegisters).errcode = 0 := rfl
@[simp] theorem State.clearRegisters_snapshot : (s.clearRegisters).snapshot = Snapshot.empty := rfl
@[simp] theorem State.clearRegisters_mem : (s.clearRegisters).mem = s.mem := rfl
@[simp] theorem State.clearRegisters_powerOns : (s.clearRegisters).powerOns = s.powerOns := rfl
@[simp] theorem State.clearRegisters_aborts : (s.clearRegisters).aborts = s.aborts := rfl
@[simp] theorem State.clearRegisters_agenda : (s.clearRegisters).agenda = s.agenda := rfl
@[simp] theorem State.clearRegisters_responses : (s.clearRegisters).responses = s.responses := rfl

@[simp] theorem State.powerOnAction_cmd : (s.powerOnAction).cmd = 0 := rfl
@[simp] theorem State.powerOnAction_src : (s.powerOnAction).src = 0 := rfl
@[simp] theorem State.powerOnAction_dst : (s.powerOnAction).dst = 0 := rfl
@[simp] theorem State.powerOnAction_len : (s.powerOnAction).len = 0 := rfl
@[simp] theorem State.powerOnAction_key : (s.powerOnAction).key = 0 := rfl
@[simp] theorem State.powerOnAction_klen : (s.powerOnAction).klen = 0 := rfl
@[simp] theorem State.powerOnAction_opa : (s.powerOnAction).opa = 0 := rfl
@[simp] theorem State.powerOnAction_opb : (s.powerOnAction).opb = 0 := rfl
@[simp] theorem State.powerOnAction_result : (s.powerOnAction).result = 0 := rfl
@[simp] theorem State.powerOnAction_outlen : (s.powerOnAction).outlen = 0 := rfl
@[simp] theorem State.powerOnAction_ie : (s.powerOnAction).ie = false := rfl
@[simp] theorem State.powerOnAction_busy : (s.powerOnAction).busy = false := rfl
@[simp] theorem State.powerOnAction_done : (s.powerOnAction).done = false := rfl
@[simp] theorem State.powerOnAction_err : (s.powerOnAction).err = false := rfl
@[simp] theorem State.powerOnAction_drop : (s.powerOnAction).drop = false := rfl
@[simp] theorem State.powerOnAction_lockv : (s.powerOnAction).lockv = false := rfl
@[simp] theorem State.powerOnAction_errcode : (s.powerOnAction).errcode = 0 := rfl
@[simp] theorem State.powerOnAction_snapshot : (s.powerOnAction).snapshot = Snapshot.empty := rfl
@[simp] theorem State.powerOnAction_mem : (s.powerOnAction).mem = [] := rfl
@[simp] theorem State.powerOnAction_powerOns : (s.powerOnAction).powerOns = s.powerOns + 1 := rfl
@[simp] theorem State.powerOnAction_aborts : (s.powerOnAction).aborts = s.aborts := rfl
@[simp] theorem State.powerOnAction_agenda : (s.powerOnAction).agenda = s.agenda := rfl
@[simp] theorem State.powerOnAction_responses : (s.powerOnAction).responses = s.responses := rfl

end Sys2Proof.Machine
end

