-- ==== Sys2Proof/Laws/Memory.lean ====
section
/-! SUPPORT. The laws of MEM: read after write, the frame of a write, and the canonical form (spec/20_memory.md R60 to R68). -/

namespace Sys2Proof.Machine

theorem Memory.lookup_write_same (m : Memory) (a : Nat) (b : Byte) : Memory.lookup (Memory.write m a b) a = some b := by
  induction m with
  | nil => simp [Memory.write, Memory.lookup]
  | cons kc m ih =>
    obtain ⟨k, c⟩ := kc
    simp only [Memory.write]
    split
    · simp [Memory.lookup]
    · split
      · simp [Memory.lookup]
      · rename_i h
        simp [Memory.lookup, Ne.symm h, ih]

theorem Memory.lookup_write_other (m : Memory) {a x : Nat} (b : Byte) (h : x ≠ a) :
    Memory.lookup (Memory.write m a b) x = Memory.lookup m x := by
  induction m with
  | nil => simp [Memory.write, Memory.lookup, Ne.symm h]
  | cons kc m ih =>
    obtain ⟨k, c⟩ := kc
    simp only [Memory.write]
    split
    · simp [Memory.lookup, Ne.symm h]
    · split
      · rename_i hk
        subst hk
        simp [Memory.lookup, Ne.symm h]
      · simp [Memory.lookup, ih]

/-- A byte sequence leaves every address outside its region alone. -/
theorem Memory.lookup_writeBytes_outside (m : Memory) (a : Nat) (bs : List Byte) (x : Nat)
    (h : x < a ∨ a + bs.length ≤ x) : Memory.lookup (Memory.writeBytes m a bs) x = Memory.lookup m x := by
  induction bs generalizing m a with
  | nil => rfl
  | cons b bs ih =>
    simp only [List.length_cons] at h
    rw [Memory.writeBytes, ih _ _ (by omega), Memory.lookup_write_other _ _ (by omega)]

/-- Each byte of a written sequence reads back. -/
theorem Memory.lookup_writeBytes_inside (m : Memory) (a : Nat) (bs : List Byte) (i : Nat) (h : i < bs.length) :
    Memory.lookup (Memory.writeBytes m a bs) (a + i) = some (bs.getD i 0) := by
  induction bs generalizing m a i with
  | nil => simp at h
  | cons b bs ih =>
    rw [Memory.writeBytes]
    cases i with
    | zero =>
      rw [Memory.lookup_writeBytes_outside _ _ _ _ (by omega), Nat.add_zero, Memory.lookup_write_same]
      simp
    | succ i =>
      have := ih (Memory.write m a b) (a + 1) i (by simpa using h)
      rw [show a + (i + 1) = a + 1 + i by omega, this]
      simp

theorem Memory.wfFrom_mono {lo lo' : Nat} {m : Memory} (h : Memory.wfFrom lo m = true) (hl : lo' ≤ lo) :
    Memory.wfFrom lo' m = true := by
  cases m with
  | nil => rfl
  | cons kc m =>
    simp only [Memory.wfFrom, Bool.and_eq_true, decide_eq_true_eq] at h ⊢
    exact ⟨⟨by omega, h.1.2⟩, h.2⟩

theorem Memory.wfFrom_write {lo : Nat} {m : Memory} {a : Nat} (b : Byte) (h : Memory.wfFrom lo m = true) (hl : lo ≤ a)
    (ha : a < Config.memSize) : Memory.wfFrom lo (Memory.write m a b) = true := by
  induction m generalizing lo with
  | nil => simp [Memory.write, Memory.wfFrom, hl, ha]
  | cons kc m ih =>
    obtain ⟨k, c⟩ := kc
    simp only [Memory.wfFrom, Bool.and_eq_true, decide_eq_true_eq] at h
    obtain ⟨⟨hlo, hk⟩, hm⟩ := h
    simp only [Memory.write]
    split
    · rename_i hak
      simp only [Memory.wfFrom, Bool.and_eq_true, decide_eq_true_eq]
      exact ⟨⟨hl, ha⟩, ⟨by omega, hk⟩, hm⟩
    · split
      · rename_i hak
        subst hak
        simp only [Memory.wfFrom, Bool.and_eq_true, decide_eq_true_eq]
        exact ⟨⟨hl, ha⟩, hm⟩
      · simp only [Memory.wfFrom, Bool.and_eq_true, decide_eq_true_eq]
        exact ⟨⟨hlo, hk⟩, ih hm (by omega)⟩

/-- Writing one byte of MEM keeps the canonical form. -/
theorem Memory.wf_write {m : Memory} {a : Nat} (b : Byte) (h : Memory.wf m = true) (ha : a < Config.memSize) :
    Memory.wf (Memory.write m a b) = true := Memory.wfFrom_write b h (Nat.zero_le a) ha

/-- Writing a byte sequence inside MEM keeps the canonical form. -/
theorem Memory.wf_writeBytes {m : Memory} {a : Nat} {bs : List Byte} (h : Memory.wf m = true)
    (ha : bs = [] ∨ a + bs.length ≤ Config.memSize) : Memory.wf (Memory.writeBytes m a bs) = true := by
  induction bs generalizing m a with
  | nil => exact h
  | cons b bs ih =>
    have ha : a + (bs.length + 1) ≤ Config.memSize := by simpa using ha
    exact ih (Memory.wf_write b h (by omega)) (.inr (by omega))

theorem State.reset_mem_wf : Memory.wf State.reset.mem = true := rfl

/-! ### Reading a byte of a state -/

/-- The byte read at an address depends on MEM and the last power-on alone. -/
theorem State.byteAt_congr {s t : State} (a : Nat) (hm : Memory.lookup t.mem a = Memory.lookup s.mem a)
    (hp : t.powerOns = s.powerOns) : t.byteAt a = s.byteAt a := by
  simp only [State.byteAt, hm, hp]

theorem State.byteAt_of_mem_eq {s t : State} (a : Nat) (hm : t.mem = s.mem) (hp : t.powerOns = s.powerOns) :
    t.byteAt a = s.byteAt a := State.byteAt_congr a (by rw [hm]) hp

/-- Where a state's MEM is another's with a sequence written, the addresses outside read as before. -/
theorem State.byteAt_writeBytes_outside {s t : State} {a : Nat} {bs : List Byte} {x : Nat}
    (hm : t.mem = Memory.writeBytes s.mem a bs) (hp : t.powerOns = s.powerOns) (h : x < a ∨ a + bs.length ≤ x) :
    t.byteAt x = s.byteAt x :=
  State.byteAt_congr x (by rw [hm, Memory.lookup_writeBytes_outside _ _ _ _ h]) hp

/-- Where a state's MEM is another's with a sequence written, the sequence reads back. -/
theorem State.byteAt_writeBytes_inside {s t : State} {a : Nat} {bs : List Byte} {i : Nat}
    (hm : t.mem = Memory.writeBytes s.mem a bs) (h : i < bs.length) : t.byteAt (a + i) = bs.getD i 0 := by
  simp only [State.byteAt, hm, Memory.lookup_writeBytes_inside _ _ _ _ h, Option.getD_some]

@[simp] theorem State.readBytes_length (s : State) (a n : Nat) : (s.readBytes a n).length = n := by
  simp [State.readBytes]

theorem State.readBytes_getD (s : State) (a n i : Nat) (h : i < n) : (s.readBytes a n).getD i 0 = s.byteAt (a + i) := by
  simp [State.readBytes, h]

@[simp] theorem State.readSrc_length (s : State) (n : Nat) : (s.readSrc n).length = n := State.readBytes_length _ _ _

@[simp] theorem State.readKey_length (s : State) (n : Nat) : (s.readKey n).length = n := State.readBytes_length _ _ _

end Sys2Proof.Machine
end

