-- ==== Sys2Proof/Laws/Transforms.lean ====
section
/-! SUPPORT. The lengths of the pure functions' results, and what each transform holds at an index. -/

namespace Sys2Proof.Machine

@[simp] theorem substitute_length (t : Byte → Byte) (x : List Byte) : (substitute t x).length = x.length := by
  simp [substitute]

@[simp] theorem rotateRow_length (row : List Byte) (k : Nat) (d : Dir) : (rotateRow row k d).length = row.length := by
  simp [rotateRow]

theorem rotIndex_lt {n : Nat} (k : Nat) (d : Dir) (i : Nat) (h : 0 < n) : rotIndex n k d i < n := by
  cases d <;> exact Nat.mod_lt _ h

theorem rotateRow_getD {row : List Byte} (k : Nat) (d : Dir) {i : Nat} (h : i < row.length) :
    (rotateRow row k d).getD i 0 = row.getD (rotIndex row.length k d i) 0 := by
  simp [rotateRow, h]

theorem slice_length (x : List Byte) (a n : Nat) (h : a + n ≤ x.length) : (slice x a n).length = n := by
  simp [slice]; omega

/-- A list made of `side` rows of `side` bytes. -/
theorem flatMap_length_of_rows {α : Type} (n w : Nat) (f : α → List Byte) (l : List α) (hl : l.length = n)
    (h : ∀ a ∈ l, (f a).length = w) : (l.flatMap f).length = n * w := by
  rw [List.length_flatMap, List.map_congr_left h, List.map_const', List.sum_replicate, hl]
  simp

theorem shiftRows_length {x : List Byte} {side : Nat} (d : Dir) (h : x.length = side * side) :
    (shiftRows x side d).length = side * side := by
  apply flatMap_length_of_rows side side _ _ (by simp)
  intro r hr
  rw [rotateRow_length, slice_length]
  have : r + 1 ≤ side := List.mem_range.mp hr
  calc r * side + side = (r + 1) * side := by ring
    _ ≤ side * side := Nat.mul_le_mul_right _ this
    _ = x.length := h.symm

@[simp] theorem mixColumns_length (x : List Byte) (side : Nat) (M : Fin side → Fin side → Byte) (m : Byte) :
    (mixColumns x side M m).length = side * side := by
  apply flatMap_length_of_rows side side _ _ (by simp)
  intro i _
  simp

@[simp] theorem addBytes_length (a b : List Byte) : (addBytes a b).length = min a.length b.length := by
  simp [addBytes]

@[simp] theorem addTrunc_length (a b : List Byte) : (addTrunc a b).length = a.length := by
  induction a generalizing b with
  | nil => simp [addTrunc]
  | cons x a ih => cases b <;> simp [addTrunc, ih]

/-- `rows` rows of `w` bytes, joined: byte `i * w + j` is byte `j` of row `i`. -/
theorem flatMap_getD_of_rows {w : Nat} (f : Nat → List Byte) (n : Nat) (h : ∀ r < n, (f r).length = w) {i j : Nat}
    (hi : i < n) (hj : j < w) : ((List.range n).flatMap f).getD (i * w + j) 0 = (f i).getD j 0 := by
  induction n with
  | zero => omega
  | succ n ih =>
    rw [List.range_succ, List.flatMap_append]
    have hlen : ((List.range n).flatMap f).length = n * w :=
      flatMap_length_of_rows n w f _ (by simp) fun r hr => h r (by have := List.mem_range.mp hr; omega)
    rcases Nat.lt_succ_iff_lt_or_eq.mp hi with hlt | rfl
    · have : i * w + j < n * w := by
        calc i * w + j < i * w + w := by omega
          _ = (i + 1) * w := by ring
          _ ≤ n * w := Nat.mul_le_mul_right _ hlt
      rw [List.getD_append _ _ _ _ (by omega), ih (fun r hr => h r (by omega)) hlt]
    · rw [List.getD_append_right _ _ _ _ (by omega), hlen]
      simp

theorem slice_getD (x : List Byte) (a n : Nat) {i : Nat} (h : i < n) : (slice x a n).getD i 0 = x.getD (a + i) 0 := by
  simp only [slice, List.getD_eq_getElem?_getD]
  rw [List.getElem?_take_of_lt h, List.getElem?_drop]

/-- Byte `j` of row `i` after `shift_rows` comes from the same row (R104). -/
theorem shiftRows_getD {x : List Byte} {side : Nat} (d : Dir) (hx : x.length = side * side) {i j : Nat} (hi : i < side)
    (hj : j < side) : (shiftRows x side d).getD (i * side + j) 0 = x.getD (i * side + rotIndex side i d j) 0 := by
  have hlen : ∀ r < side, (slice x (r * side) side).length = side := fun r hr => slice_length _ _ _ <|
    calc r * side + side = (r + 1) * side := by ring
      _ ≤ side * side := Nat.mul_le_mul_right _ hr
      _ = x.length := hx.symm
  rw [shiftRows, flatMap_getD_of_rows (w := side) _ side (fun r hr => by rw [rotateRow_length, hlen r hr]) hi hj,
    rotateRow_getD _ _ (by rw [hlen i hi]; exact hj), hlen i hi,
    slice_getD _ _ _ (rotIndex_lt _ _ _ (by omega))]

/-- `mixColumns` as rows counted by numbers. -/
theorem mixColumns_getD (x : List Byte) (side : Nat) (M : Fin side → Fin side → Byte) (m : Byte) (i j : Fin side) :
    (mixColumns x side M m).getD (i.val * side + j.val) 0 = mixByte x side M m i j := by
  have hrow : mixColumns x side M m = (List.range side).flatMap fun r =>
      if h : r < side then (List.finRange side).map fun j => mixByte x side M m ⟨r, h⟩ j else [] := by
    simp only [mixColumns]
    rw [← List.map_coe_finRange_eq_range, List.flatMap_map]
    simp
  rw [hrow, flatMap_getD_of_rows (w := side) _ side _ i.isLt j.isLt]
  · simp
  · intro r hr
    simp [hr]

/-! ### Padding and the key schedules -/

theorem padCount_lt (len : Nat) {block : Nat} (h : 0 < block) : padCount len block < block := Nat.mod_lt _ h

theorem pad_length (buf : List Byte) (block : Nat) :
    (pad buf block).1.length = buf.length + padCount buf.length block := by
  simp [pad]

theorem scheduleTransform_length (T : Tables) (W i : Nat) (t : List Byte) :
    (scheduleTransform T W i t).length = t.length := by
  unfold scheduleTransform
  split
  · simp
  · split <;> simp

/-- The words so far, all of 4 bytes, of which there are at least `W ≥ 1`. -/
structure GoodWords (W : Nat) (ws : List (List Byte)) : Prop where
  pos : 0 < W
  enough : W ≤ ws.length
  four : ∀ w ∈ ws, w.length = 4

theorem GoodWords.getD_length {W : Nat} {ws : List (List Byte)} (h : GoodWords W ws) {i : Nat} (hi : i < ws.length) :
    (ws.getD i []).length = 4 := by
  rw [List.getD_eq_getElem _ _ hi]
  exact h.four _ (List.getElem_mem hi)

theorem GoodWords.next_length (T : Tables) {W : Nat} {ws : List (List Byte)} (h : GoodWords W ws) :
    (nextScheduleWord T W ws).length = 4 := by
  have := h.pos
  have := h.enough
  rw [nextScheduleWord, addBytes_length, scheduleTransform_length, h.getD_length (by omega), h.getD_length (by omega)]
  rfl

theorem GoodWords.snoc (T : Tables) {W : Nat} {ws : List (List Byte)} (h : GoodWords W ws) :
    GoodWords W (ws ++ [nextScheduleWord T W ws]) where
  pos := h.pos
  enough := by have := h.enough; simp; omega
  four := by
    intro w hw
    rcases List.mem_append.mp hw with hw | hw
    · exact h.four w hw
    · rw [List.mem_singleton.mp hw]
      exact h.next_length T

theorem GoodWords.extend (T : Tables) {W : Nat} (n : Nat) {ws : List (List Byte)} (h : GoodWords W ws) :
    GoodWords W (extendSchedule T W n ws) ∧ (extendSchedule T W n ws).length = ws.length + n := by
  induction n generalizing ws with
  | zero => exact ⟨h, rfl⟩
  | succ n ih =>
    have := ih (h.snoc T)
    refine ⟨this.1, ?_⟩
    rw [extendSchedule, this.2]
    simp
    omega

theorem keyWords_good {key : List Byte} (h : 0 < key.length / 4) : GoodWords (key.length / 4) (keyWords key (key.length / 4)) where
  pos := h
  enough := by simp [keyWords]
  four := by
    intro w hw
    obtain ⟨i, hi, rfl⟩ := List.mem_map.mp hw
    have := List.mem_range.mp hi
    exact slice_length _ _ _ (by omega)

theorem flatten_length_of_four {W : Nat} {ws : List (List Byte)} (h : GoodWords W ws) : ws.flatten.length = 4 * ws.length := by
  rw [List.length_flatten, List.map_congr_left h.four, List.map_const', List.sum_replicate]
  simp [Nat.mul_comm]

/-- A key of at least one word and at most 60 gives a schedule of 240 bytes. -/
theorem expandCipherKey_length (T : Tables) {key : List Byte} (h : 4 ≤ key.length) (h' : key.length ≤ 240) :
    (expandCipherKey T key).length = 240 := by
  have hg := keyWords_good (key := key) (by omega)
  have he := hg.extend T (scheduleWords - key.length / 4)
  rw [expandCipherKey, flatten_length_of_four he.1, he.2]
  simp [keyWords, scheduleWords]
  omega

theorem nextHashKey_length (T : Tables) (i : Nat) (k : List Byte) : (nextHashKey T i k).length = 64 := by
  simp [nextHashKey]

theorem hashKeyBlocks_length (T : Tables) (n i : Nat) {k : List Byte} (h : k.length = 64) :
    (hashKeyBlocks T n i k).flatten.length = 64 * (n + 1) := by
  induction n generalizing i k with
  | zero => simp [hashKeyBlocks, h]
  | succ n ih =>
    rw [hashKeyBlocks, List.flatten_cons, List.length_append, ih (i + 1) (nextHashKey_length T i k), h]
    ring

theorem expandHashKey_length (T : Tables) {seed : List Byte} (h : seed.length = 64) :
    (expandHashKey T seed).length = 704 := hashKeyBlocks_length T 10 1 h

/-! ### The cipher and the hash -/

theorem cipherRoundKey_length {ks : List Byte} {i : Nat} (h : ks.length = 240) (hi : i < 15) :
    (cipherRoundKey ks i).length = 16 := slice_length _ _ _ (by omega)

theorem hashRoundKey_length {ks : List Byte} {r : Nat} (h : ks.length = 704) (hr : r < 11) :
    (hashRoundKey ks r).length = 64 := slice_length _ _ _ (by omega)

theorem encRound_length (T : Tables) (x : List Byte) {k : List Byte} (h : k.length = 16) :
    (encRound T x k).length = 16 := by
  simp [encRound, h]

theorem decRound_length (T : Tables) (x k : List Byte) : (decRound T x k).length = 16 := by
  rw [decRound, substitute_length, shiftRows_length _ (mixColumns_length _ _ _ _)]

theorem hashRound_length (T : Tables) (x : List Byte) {k : List Byte} (h : k.length = 64) :
    (hashRound T x k).length = 64 := by
  simp [hashRound, h]

/-- A fold that keeps a property at each of its steps ends with it. -/
theorem foldl_range_keeps {α : Type} (P : α → Prop) (f : α → Nat → α) (n : Nat) (x : α) (hx : P x)
    (h : ∀ x i, i < n → P x → P (f x i)) : P ((List.range n).foldl f x) := by
  induction n with
  | zero => exact hx
  | succ n ih =>
    rw [List.range_succ, List.foldl_append]
    exact h _ _ (by omega) (ih fun x i hi => h x i (by omega))

theorem encBlock_length (T : Tables) {ks x : List Byte} (hk : ks.length = 240) (hx : x.length = 16) :
    (encBlock T ks x).length = 16 :=
  foldl_range_keeps (fun x : List Byte => x.length = 16) _ 15 x hx fun x _ hi _ =>
    encRound_length T x (cipherRoundKey_length hk hi)

theorem decBlock_length (T : Tables) (ks : List Byte) {x : List Byte} (hx : x.length = 16) :
    (decBlock T ks x).length = 16 :=
  foldl_range_keeps (fun x : List Byte => x.length = 16) _ 15 x hx fun _ _ _ _ => decRound_length T _ _

theorem hashBlock_length (T : Tables) {ks x : List Byte} (hk : ks.length = 704) (hx : x.length = 64) :
    (hashBlock T ks x).length = 64 :=
  foldl_range_keeps (fun x : List Byte => x.length = 64) _ 11 x hx fun x _ hi _ =>
    hashRound_length T x (hashRoundKey_length hk hi)

theorem mapBlocks_length {size : Nat} (f : List Byte → List Byte) (x : List Byte)
    (h : ∀ y : List Byte, y.length = size → (f y).length = size) :
    (mapBlocks size f x).length = x.length / size * size := by
  apply flatMap_length_of_rows _ size _ _ (by simp)
  intro b hb
  have hb : b + 1 ≤ x.length / size := List.mem_range.mp hb
  apply h
  apply slice_length
  calc size * b + size = (b + 1) * size := by ring
    _ ≤ x.length / size * size := Nat.mul_le_mul_right _ hb
    _ ≤ x.length := Nat.div_mul_le_self _ _

theorem xaeEncrypt_length (T : Tables) {pt key : List Byte} (h : 4 ≤ key.length) (h' : key.length ≤ 240) :
    (xaeEncrypt T pt key).length = encryptedLength pt.length := by
  rw [xaeEncrypt, List.length_append,
    mapBlocks_length _ _ fun y hy => encBlock_length T (expandCipherKey_length T h h') hy, pad_length, padCount,
    encryptedLength, List.length_singleton]
  omega

theorem xaeDecrypt_length_le (T : Tables) (ct key : List Byte) : (xaeDecrypt T ct key).length ≤ ct.length - 1 := by
  simp only [xaeDecrypt, List.length_take]
  rw [mapBlocks_length _ _ fun y hy => decBlock_length T (expandCipherKey T key) hy]
  simp only [List.length_take]
  omega

theorem compress_length (T : Tables) {H B : List Byte} (hH : H.length = 64) (hB : B.length = 64) :
    (compress T H B).length = 64 := by
  rw [compress, addBytes_length, addBytes_length, hashBlock_length T (expandHashKey_length T hH) hB, hH, hB]
  rfl

/-- The padded working buffer is a multiple of 64 bytes, and longer than the IV. -/
theorem paddedBuffer_length (T : Tables) (msg : List Byte) :
    (paddedBuffer T msg).length % 64 = 0 ∧ 64 ≤ (paddedBuffer T msg).length := by
  have : 64 ≤ (hashBuffer T msg).length := by simp [hashBuffer]
  rw [paddedBuffer, pad_length, padCount]
  omega

theorem xwhHash_length (T : Tables) (msg : List Byte) : (xwhHash T msg).length = 64 := by
  have hp := paddedBuffer_length T msg
  apply foldl_range_keeps (fun H : List Byte => H.length = 64)
  · exact slice_length _ _ _ (by omega)
  · intro H i hi hH
    have : i < (paddedBuffer T msg).length / 64 - 1 := hi
    exact compress_length T hH (slice_length _ _ _ (by omega))

end Sys2Proof.Machine
end

