-- ==== Sys2Proof/Laws/Exec.lean ====
section
/-! SUPPORT. What the completion of a command can do, said once: the inversion of `exec`, of the checks, and the size of each
effect (spec/30_encoding.md R95, spec/60_exceptions.md R212 to R215). -/

namespace Sys2Proof.Machine

/-- The effect of each command, gathered (R110 to R202). -/
def effectOf (T : Tables) (i : Instr) (s : State) : Effect :=
  match i with
  | .nop => nopEffect
  | .gfmul m => gfmulEffect m s
  | .subst t => substEffect T t s
  | .rotrow k d => rotrowEffect k d s
  | .shrows o d => shrowsEffect o d s
  | .mixcol o t m => mixcolEffect T o t m s
  | .addb => addbEffect s
  | .addbt => addbtEffect s
  | .xkeyc => xkeycEffect T s
  | .xkeyh => xkeyhEffect T s
  | .xaeencr => xaeencrEffect T s
  | .xaedecr => xaedecrEffect T s
  | .xaeenc => xaeencEffect T s
  | .xaedec => xaedecEffect T s
  | .xwhrnd => xwhrndEffect T s
  | .xwhcmp => xwhcmpEffect T s
  | .xwhhash => xwhhashEffect T s

/-- Every command answers the completed state. -/
theorem exec_eq (i : Instr) (s : State) : exec i s = .next (complete i s (effectOf Config.tables i s)) := by
  cases i <;> rfl

theorem complete_of_error {i : Instr} {s : State} {c : ErrorCode} (e : Effect) (h : checkInstr i s = some c) :
    complete i s e = s.completeError c.code := by
  simp only [complete, h]

theorem complete_of_ok {i : Instr} {s : State} (e : Effect) (h : checkInstr i s = none) :
    complete i s e = s.completeOk e := by
  simp only [complete, h]

/-- The two ways a command ends. -/
theorem exec_cases (i : Instr) (s : State) :
    (∃ c, checkInstr i s = some c ∧ exec i s = .next (s.completeError c.code)) ∨
      (checkInstr i s = none ∧ exec i s = .next (s.completeOk (effectOf Config.tables i s))) := by
  rw [exec_eq]
  cases h : checkInstr i s with
  | some c => exact .inl ⟨c, rfl, by rw [complete_of_error _ h]⟩
  | none => exact .inr ⟨rfl, by rw [complete_of_ok _ h]⟩

theorem ErrorCode.code_ne_zero (c : ErrorCode) : c.code ≠ 0 := by cases c <;> decide

theorem ErrorCode.code_le (c : ErrorCode) : c.code.toNat ≤ 9 := by cases c <;> decide

theorem ErrorCode.code_injective {c d : ErrorCode} (h : c.code = d.code) : c = d := by
  cases c <;> cases d <;> first | rfl | exact absurd h (by decide)

theorem Region.fits_iff (r : Region) : r.fits = true ↔ r.n = 0 ∨ r.base + r.n ≤ Config.memSize := by
  simp [Region.fits]

/-- When every check of a row passes. -/
theorem check_eq_none {r : Requirements} {s : State} :
    check r s = none ↔
      (r.badSelect = false ∧ r.badKeySize = false ∧ r.zeroLength = false ∧ r.emptyInput = false ∧
        r.badCiphertextSize = false) ∧ ((∀ x ∈ r.inputs, x.fits = true) ∧ r.output.fits = true) ∧
        ∀ a, r.marker = some a → (s.byteAt a).toNat ≤ 15 := by
  have hall : ((∀ x ∈ r.inputs, x.fits = true) ∧ r.output.fits = true) ↔
      (r.inputs.all Region.fits && r.output.fits) = true := by
    rw [Bool.and_eq_true, List.all_eq_true]
  rw [hall, check]
  generalize (r.inputs.all Region.fits && r.output.fits) = fit
  cases r.badSelect <;> cases r.badKeySize <;> cases r.zeroLength <;> cases r.emptyInput <;>
    cases r.badCiphertextSize <;> cases fit <;> simp
  cases hm : r.marker with
  | none => simp
  | some a => by_cases ha : (s.byteAt a).toNat ≤ 15 <;> simp [ha]

/-- The regions that the checks consult are the rows of R213 as written out in `inputRegions` and `outputRegion`. -/
theorem requirements_regions (i : Instr) (p : Snapshot) :
    (requirements i p).inputs = inputRegions i p ∧ (requirements i p).output = outputRegion i p := by
  cases i <;> first
    | exact ⟨rfl, rfl⟩
    | (rename_i o _; cases o <;> exact ⟨rfl, rfl⟩)
    | (rename_i o _ _; cases o <;> exact ⟨rfl, rfl⟩)

theorem keySizeOk_iff (n : Nat) : keySizeOk n = true ↔ n % 4 = 0 ∧ 4 ≤ n ∧ n ≤ 32 := by
  simp only [keySizeOk, Bool.and_eq_true, decide_eq_true_eq, and_assoc]
  exact Iff.rfl

theorem stateBytes_four : stateBytes .four = 16 := rfl

theorem stateBytes_eight : stateBytes .eight = 64 := rfl

theorem mixWith_length (T : Tables) (t : MixTable) (m : Byte) (x : List Byte) :
    (mixWith T t m x).length = stateBytes t.order := by
  cases t <;> simp [mixWith, stateBytes, MixTable.order, Order.side]

/-- A command whose checks pass writes from DST on, at most the bytes of its output region. -/
theorem effect_fits (T : Tables) {i : Instr} {s : State} (h : checkInstr i s = none) :
    ((effectOf T i s).bytes = [] ∨ (effectOf T i s).addr = (requirements i s.snapshot).output.base) ∧
      (effectOf T i s).bytes.length ≤ (requirements i s.snapshot).output.n := by
  have hc := (check_eq_none (r := requirements i s.snapshot) (s := s)).mp h
  cases i
  case nop => exact ⟨.inl rfl, Nat.le_refl _⟩
  case gfmul m => exact ⟨.inl rfl, Nat.le_refl _⟩
  case subst t => exact ⟨.inr rfl, by simp [effectOf, substEffect, Effect.toDst, requirements, Snapshot.dstRegion]⟩
  case rotrow k d => exact ⟨.inr rfl, by simp [effectOf, rotrowEffect, Effect.toDst, requirements, Snapshot.dstRegion]⟩
  case shrows o d =>
    refine ⟨.inr rfl, ?_⟩
    have := shiftRows_length (x := s.readSrc (stateBytes o)) (side := o.side) d (by simp [stateBytes])
    simp only [effectOf, shrowsEffect, Effect.toDst, requirements, Snapshot.dstRegion, this]
    exact Nat.le_refl _
  case mixcol o t m =>
    refine ⟨.inr rfl, ?_⟩
    have ho : t.order = o := by simpa [requirements] using hc.1.1
    simp [effectOf, mixcolEffect, Effect.toDst, requirements, Snapshot.dstRegion, mixWith_length, ho]
  case addb => exact ⟨.inr rfl, by simp [effectOf, addbEffect, Effect.toDst, requirements, Snapshot.dstRegion]⟩
  case addbt => exact ⟨.inr rfl, by simp [effectOf, addbtEffect, Effect.toDst, requirements, Snapshot.dstRegion]⟩
  case xkeyc =>
    have hk : keySizeOk s.snapshot.klenBytes = true := by simpa [requirements] using hc.1.2.1
    rw [keySizeOk_iff] at hk
    refine ⟨.inr rfl, ?_⟩
    simp only [effectOf, xkeycEffect, Effect.toDst, requirements, Snapshot.dstRegion]
    rw [expandCipherKey_length] <;> simp <;> omega
  case xkeyh =>
    refine ⟨.inr rfl, ?_⟩
    simp only [effectOf, xkeyhEffect, Effect.toDst, requirements, Snapshot.dstRegion]
    rw [expandHashKey_length _ (State.readSrc_length _ _)]
  case xaeencr =>
    refine ⟨.inr rfl, ?_⟩
    simp only [effectOf, xaeencrEffect, Effect.toDst, requirements, Snapshot.dstRegion]
    rw [encRound_length _ _ (State.readKey_length _ _)]
  case xaedecr =>
    refine ⟨.inr rfl, ?_⟩
    simp only [effectOf, xaedecrEffect, Effect.toDst, requirements, Snapshot.dstRegion]
    rw [decRound_length]
  case xaeenc =>
    have hk : keySizeOk s.snapshot.klenBytes = true := by simpa [requirements] using hc.1.2.1
    rw [keySizeOk_iff] at hk
    refine ⟨.inr rfl, ?_⟩
    simp only [effectOf, xaeencEffect, Effect.toDst, requirements, Snapshot.dstRegion]
    rw [xaeEncrypt_length] <;> simp <;> omega
  case xaedec =>
    refine ⟨.inr rfl, ?_⟩
    simp only [effectOf, xaedecEffect, Effect.toDst, requirements, Snapshot.dstRegion]
    exact (xaeDecrypt_length_le _ _ _).trans (by simp)
  case xwhrnd =>
    refine ⟨.inr rfl, ?_⟩
    simp only [effectOf, xwhrndEffect, Effect.toDst, requirements, Snapshot.dstRegion]
    rw [hashRound_length _ _ (State.readKey_length _ _)]
  case xwhcmp =>
    refine ⟨.inr rfl, ?_⟩
    simp only [effectOf, xwhcmpEffect, Effect.toDst, requirements, Snapshot.dstRegion]
    rw [compress_length _ (State.readKey_length _ _) (State.readSrc_length _ _)]
  case xwhhash =>
    refine ⟨.inr rfl, ?_⟩
    simp only [effectOf, xwhhashEffect, Effect.toDst, requirements, Snapshot.dstRegion]
    rw [xwhHash_length]

/-- The bytes a command writes when its checks pass lie in MEM. -/
theorem effect_inside (T : Tables) {i : Instr} {s : State} (h : checkInstr i s = none) :
    (effectOf T i s).bytes = [] ∨ (effectOf T i s).addr + (effectOf T i s).bytes.length ≤ Config.memSize := by
  have hout := ((check_eq_none (r := requirements i s.snapshot) (s := s)).mp h).2.1.2
  rw [Region.fits_iff] at hout
  obtain ⟨he | ha, hl⟩ := effect_fits T h
  · exact .inl he
  · rcases hout with hn | hn
    · exact .inl (List.eq_nil_of_length_eq_zero (by omega))
    · exact .inr (by omega)

/-- RESULT is a byte after every successful completion (R36). -/
theorem effect_result_lt (T : Tables) (i : Instr) (s : State) : (effectOf T i s).result.toNat < 256 := by
  cases i
  case gfmul m =>
    simp only [effectOf, gfmulEffect, BitVec.toNat_setWidth]
    have := (gfMul s.snapshot.operandA s.snapshot.operandB m).isLt
    omega
  all_goals exact Nat.zero_lt_of_lt (Nat.lt_of_lt_of_le (show (0 : Nat) < 1 by decide) (by decide : 1 ≤ 256))

/-! ### Completion of a latched word -/

/-- The three ways the completion step ends: the word is no command, the command's checks fail, or it succeeds. -/
theorem completion_cases (s : State) :
    (∃ d, decode s.snapshot.cmd = .error d ∧ completion s = .next (s.completeError (errorOfDecode d).code)) ∨
      ∃ i, decode s.snapshot.cmd = .ok i ∧
        ((∃ c, checkInstr i s = some c ∧ completion s = .next (s.completeError c.code)) ∨
          (checkInstr i s = none ∧ completion s = .next (s.completeOk (effectOf Config.tables i s)))) := by
  cases h : decode s.snapshot.cmd with
  | error d => exact .inl ⟨d, rfl, by simp only [completion, h]⟩
  | ok i =>
    refine .inr ⟨i, rfl, ?_⟩
    simp only [completion, h]
    exact exec_cases i s

end Sys2Proof.Machine
end

