-- ==== Sys2Proof/Laws/Bus.lean ====
section
/-! SUPPORT. What one host access and one reset can do, said once (spec/20_memory.md R62 to R66,
spec/70_reset_and_hazards.md R241 to R244). -/

namespace Sys2Proof.Machine

/-- What an access does: it reaches a register, or MEM, or it is a bus error. -/
theorem accessAt_cases (s : State) (a : BusAccess) :
    (ReachesReg a ∧ s.accessAt a = s.accessReg a.offset.toNat a.op) ∨
      (ReachesMem a ∧ s.accessAt a = s.accessMem (a.offset.toNat - 0x10000) a.size a.op) ∨
      (¬ ReachesReg a ∧ ¬ ReachesMem a ∧ s.accessAt a = (s, .busError)) := by
  simp only [State.accessAt]
  by_cases h : a.offset.toNat < 0x1000
  · have hm : ¬ ReachesMem a := fun hm => by have := hm.window; omega
    simp only [if_pos h]
    by_cases h2 : a.size = .word ∧ a.offset.toNat % 4 = 0
    · exact .inl ⟨⟨h, h2.1, h2.2⟩, if_pos h2⟩
    · exact .inr (.inr ⟨fun hr => h2 ⟨hr.size, hr.aligned⟩, hm, if_neg h2⟩)
  · have hr : ¬ ReachesReg a := fun hr => h hr.block
    simp only [if_neg h]
    by_cases h2 : 0x10000 ≤ a.offset.toNat ∧ a.offset.toNat - 0x10000 + a.size.bytes ≤ Config.memSize ∧
        a.offset.toNat % a.size.bytes = 0
    · exact .inr (.inl ⟨⟨h2.1, h2.2.1, h2.2.2⟩, if_pos h2⟩)
    · exact .inr (.inr ⟨hr, fun hm => h2 ⟨hm.window, hm.inside, hm.aligned⟩, if_neg h2⟩)

/-- A register's offset finds it, and only it. -/
theorem Reg.atOffset_offset (r : Reg) : Reg.atOffset r.offset = some r := by cases r <;> rfl

/-- A register is found only at its offset. -/
theorem Reg.offset_of_atOffset {o : Nat} {r : Reg} (h : Reg.atOffset o = some r) : o = r.offset := by
  have := List.find?_some h
  exact (beq_iff_eq.mp this).symm

/-- The offset of a register, as an access carries it. -/
theorem Reg.offset_toNat (r : Reg) : (BitVec.ofNat 17 r.offset).toNat = r.offset := by cases r <;> rfl

theorem Reg.offset_injective {r r' : Reg} (h : r.offset = r'.offset) : r = r' :=
  Option.some.inj (r.atOffset_offset.symm.trans (h ▸ r'.atOffset_offset))

/-- A write that reaches a register is the aligned 32-bit write at its offset. -/
theorem ReachesReg.eq_write {a : BusAccess} {r : Reg} {v : Word} (hr : ReachesReg a)
    (ho : Reg.atOffset a.offset.toNat = some r) (hop : a.op = .write v) :
    a = ⟨BitVec.ofNat 17 r.offset, .word, .write v⟩ := by
  obtain ⟨o, z, op⟩ := a
  obtain ⟨-, rfl, -⟩ := hr
  cases hop
  rw [← Reg.offset_of_atOffset ho, BitVec.ofNat_toNat, BitVec.setWidth_eq]

/-- A move writes one register, with one value. -/
theorem WritesReg.unique {m : Move} {r r' : Reg} {v v' : Word} (h : WritesReg m r v) (h' : WritesReg m r' v') :
    r = r' ∧ v = v' := by
  have e := h.symm.trans h'
  simp only [Move.access.injEq, BusAccess.mk.injEq, BusOp.write.injEq, true_and] at e
  have := congrArg BitVec.toNat e.1
  rw [Reg.offset_toNat, Reg.offset_toNat] at this
  exact ⟨Reg.offset_injective this, e.2⟩

/-- The state after an access, before its response is recorded. -/
inductive AccessEffect (s : State) (a : BusAccess) : State → Prop where
  /-- A read, an ignored write or a bus error. -/
  | none : AccessEffect s a s
  /-- A write that reaches a register. -/
  | regWrite (r : Reg) (v : Word) (ha : a = ⟨BitVec.ofNat 17 r.offset, .word, .write v⟩) :
      AccessEffect s a (s.writeReg r v)
  /-- An access locked out of MEM. -/
  | locked (hm : ReachesMem a) (hb : s.busy = true) : AccessEffect s a { s with lockv := true }
  /-- A write that reaches MEM. -/
  | memWrite (v : Word) (hm : ReachesMem a) (hb : s.busy = false) (hop : a.op = .write v) :
      AccessEffect s a
        { s with mem := Memory.writeBytes s.mem (a.offset.toNat - 0x10000) (bytesOf v a.size.bytes) }

theorem accessAt_effect (s : State) (a : BusAccess) : AccessEffect s a (s.accessAt a).1 := by
  rcases accessAt_cases s a with ⟨hr, h⟩ | ⟨hm, h⟩ | ⟨-, -, h⟩
  · rw [h]
    cases hop : a.op with
    | read => exact .none
    | write v =>
      simp only [State.accessReg, State.writeRegBlock]
      cases ho : Reg.atOffset a.offset.toNat with
      | none => exact .none
      | some r => exact .regWrite r v (hr.eq_write ho hop)
  · rw [h]
    cases hop : a.op with
    | read =>
      simp only [State.accessMem]
      split
      · exact .locked hm ‹_›
      · exact .none
    | write v =>
      simp only [State.accessMem]
      split
      · exact .locked hm ‹_›
      · exact .memWrite v hm (by simpa using ‹¬ s.busy = true›) hop
  · rw [h]
    exact .none

@[simp] theorem bytesOf_length (v : Word) (n : Nat) : (bytesOf v n).length = n := by simp [bytesOf]

theorem AccessSize.bytes_pos (z : AccessSize) : 0 < z.bytes := by cases z <;> decide

/-- An aligned 32-bit access at a register's offset reaches it (R22, R63). -/
theorem Reg.accessAt (s : State) (r : Reg) (op : BusOp) :
    s.accessAt ⟨BitVec.ofNat 17 r.offset, .word, op⟩ = s.accessReg r.offset op := by
  have h : r.offset < 0x1000 ∧ r.offset % 4 = 0 := by cases r <;> decide
  simp only [State.accessAt, r.offset_toNat, h, true_and, if_true]

/-- An aligned 32-bit write at a register's offset is a write of that register (R22, R63). -/
theorem hostAccess_write_reg (s : State) (r : Reg) (v : Word) :
    s.hostAccess ⟨BitVec.ofNat 17 r.offset, .word, .write v⟩ = (s.writeReg r v).respond .okay := by
  simp only [State.hostAccess, r.accessAt, State.accessReg, State.writeRegBlock, r.atOffset_offset]

/-- An aligned 32-bit read at a register's offset is a read of that register (R22, R63). -/
theorem hostAccess_read_reg (s : State) (r : Reg) :
    s.hostAccess ⟨BitVec.ofNat 17 r.offset, .word, .read⟩ = s.respond (.data (s.readReg r)) := by
  simp only [State.hostAccess, r.accessAt, State.accessReg, State.readRegBlock, r.atOffset_offset]

/-- No register stands at an offset from 0x034 up (R22, R38). -/
theorem Reg.atOffset_none {o : Nat} (h : 0x034 ≤ o) : Reg.atOffset o = none := by
  apply List.find?_eq_none.mpr
  intro r _
  cases r <;> simp only [Reg.offset, beq_iff_eq] <;> omega

/-- A naturally aligned access to the window is inside it (R62, R64). -/
theorem BusAccess.inside {a : BusAccess} (h : 0x10000 ≤ a.offset.toNat) (h' : a.offset.toNat % a.size.bytes = 0) :
    ReachesMem a := by
  refine ⟨h, ?_, h'⟩
  have := a.offset.isLt
  simp only [Config.memSize]
  cases hz : a.size <;> simp only [hz, AccessSize.bytes] at h' ⊢ <;> omega

/-- An access that reaches MEM is one to its bytes (R64). -/
theorem accessAt_mem (s : State) {a : BusAccess} (h : ReachesMem a) :
    s.accessAt a = s.accessMem (a.offset.toNat - 0x10000) a.size a.op := by
  rcases accessAt_cases s a with ⟨hr, -⟩ | ⟨-, h'⟩ | ⟨-, hm, -⟩
  · have := hr.block
    have := h.window
    omega
  · exact h'
  · exact absurd h hm

/-! ### Reset -/

/-- What a reset does: no abort, or an abort of a command whose checks would have passed (R242). -/
theorem resetAction_cases (s : State) :
    (s.abortRegion = none ∧ s.resetAction = s.clearRegisters) ∨
      ∃ i, s.busy = true ∧ decode s.snapshot.cmd = .ok i ∧ checkInstr i s = none ∧
        s.abortRegion = some (requirements i s.snapshot).output ∧
        s.resetAction = { s.clearRegisters with
          mem := Memory.writeBytes s.mem (requirements i s.snapshot).output.base
            (abortBytes s.aborts (requirements i s.snapshot).output)
          aborts := s.aborts + 1 } := by
  unfold State.resetAction
  cases h : s.abortRegion with
  | none => exact .inl ⟨rfl, rfl⟩
  | some r =>
    right
    unfold State.abortRegion at h
    split at h
    · rename_i hb
      split at h
      · exact absurd h (by simp)
      · rename_i i hi
        split at h
        · exact absurd h (by simp)
        · rename_i hc
          refine ⟨i, hb, hi, hc, h.symm ▸ rfl, ?_⟩
          injection h with h
          subst h
          rfl
    · exact absurd h (by simp)

@[simp] theorem abortBytes_length (n : Nat) (r : Region) : (abortBytes n r).length = r.n := by simp [abortBytes]

/-- The bytes an abort leaves unspecified lie in MEM. -/
theorem abort_inside {i : Instr} {s : State} (h : checkInstr i s = none) :
    abortBytes s.aborts (requirements i s.snapshot).output = [] ∨
      (requirements i s.snapshot).output.base + (abortBytes s.aborts (requirements i s.snapshot).output).length ≤
        Config.memSize := by
  have hout := ((check_eq_none (r := requirements i s.snapshot) (s := s)).mp h).2.1.2
  rw [Region.fits_iff] at hout
  rw [abortBytes_length]
  rcases hout with hn | hn
  · exact .inl (List.eq_nil_of_length_eq_zero (by rw [abortBytes_length, hn]))
  · exact .inr hn

/-- A reset changes MEM and the abort count alone beside the registers. -/
theorem resetAction_clears (s : State) :
    s.resetAction = { s.clearRegisters with mem := s.resetAction.mem, aborts := s.resetAction.aborts } := by
  rcases resetAction_cases s with ⟨-, h⟩ | ⟨i, -, -, -, -, h⟩ <;> rw [h]

end Sys2Proof.Machine
end

