-- ==== Sys2Proof/Laws/PerInstr.lean ====
section
/-! SUPPORT. Statements about every command as syntax, one lemma per constructor. -/

namespace Sys2Proof.Laws.EncodeHeader

/-- The encoded word holds its opcode in OPC and no must-be-zero bit (R86, R87). -/
def Statement (i : Instr) : Prop := fieldOpc (encode i) = i.opcode.byte ∧ encode i &&& i.opcode.mbz = 0

theorem nop : Statement .nop := ⟨rfl, rfl⟩

theorem gfmul (m : Byte) : Statement (.gfmul m) := by
  revert m
  unfold Statement
  decide

theorem subst (t : SubstTable) : Statement (.subst t) := by cases t <;> exact ⟨rfl, rfl⟩

theorem rotrow (k : Byte) (d : Dir) : Statement (.rotrow k d) := by
  revert k
  unfold Statement
  cases d <;> decide

theorem shrows (o : Order) (d : Dir) : Statement (.shrows o d) := by cases o <;> cases d <;> exact ⟨rfl, rfl⟩

theorem mixcol (o : Order) (t : MixTable) (m : Byte) : Statement (.mixcol o t m) := by
  revert m
  unfold Statement
  cases o <;> cases t <;> decide

theorem addb : Statement .addb := ⟨rfl, rfl⟩

theorem addbt : Statement .addbt := ⟨rfl, rfl⟩

theorem xkeyc : Statement .xkeyc := ⟨rfl, rfl⟩

theorem xkeyh : Statement .xkeyh := ⟨rfl, rfl⟩

theorem xaeencr : Statement .xaeencr := ⟨rfl, rfl⟩

theorem xaedecr : Statement .xaedecr := ⟨rfl, rfl⟩

theorem xaeenc : Statement .xaeenc := ⟨rfl, rfl⟩

theorem xaedec : Statement .xaedec := ⟨rfl, rfl⟩

theorem xwhrnd : Statement .xwhrnd := ⟨rfl, rfl⟩

theorem xwhcmp : Statement .xwhcmp := ⟨rfl, rfl⟩

theorem xwhhash : Statement .xwhhash := ⟨rfl, rfl⟩

end Sys2Proof.Laws.EncodeHeader
end

