-- ==== Sys2Proof/Laws/Decode.lean ====
section
/-! SUPPORT. What the opcode table and the decoder answer, said once (spec/30_encoding.md R86 to R88). -/

namespace Sys2Proof

/-- The opcode table is one to one (R86). -/
theorem Opcode.ofByte_byte (op : Opcode) : Opcode.ofByte op.byte = some op := by cases op <;> rfl

theorem Opcode.byte_of_ofByte {b : Byte} {op : Opcode} (h : Opcode.ofByte b = some op) : op.byte = b := by
  have := List.find?_some h
  exact beq_iff_eq.mp this

/-- No two rows of the table have the same OPC value (R86). -/
theorem Opcode.byte_injective : Opcode.all.Pairwise fun a b => a.byte ≠ b.byte := by decide

/-- A decoded word has the decoded command's opcode and no must-be-zero bit, and its fields are the command's. -/
theorem decode_ok {c : Word} {i : Instr} (h : decode c = .ok i) :
    ∃ op, fieldOpc c = op.byte ∧ c &&& op.mbz = 0 ∧ decodeFields op c = .ok i := by
  unfold decode at h
  split at h
  · exact absurd h (by simp)
  · rename_i op hop
    split at h
    · exact ⟨op, (Opcode.byte_of_ofByte hop).symm, ‹_›, h⟩
    · exact absurd h (by simp)

/-- The word of an opcode, with no must-be-zero bit, decodes to its fields. -/
theorem decode_of_fields {c : Word} {op : Opcode} (ho : fieldOpc c = op.byte) (hz : c &&& op.mbz = 0) :
    decode c = decodeFields op c := by
  simp only [decode, ho, Opcode.ofByte_byte, hz, if_true]

end Sys2Proof
end

