-- ==== Sys2Proof/Laws/Step.lean ====
section
/-! SUPPORT. What one step can do, said once (spec/00_scope.md R15, spec/30_encoding.md R95). -/

namespace Sys2Proof.Machine

/-- The engine's turn: nothing while idle, else the completion step. -/
theorem engineTurn_cases (s : State) :
    (s.busy = false ∧ engineTurn s = .next s) ∨ (s.busy = true ∧ engineTurn s = completion s) := by
  cases h : s.busy <;> simp [engineTurn, h]

/-- Why a latched word completes with the error `c`: it does not decode (R88), or its command's checks fail (R212). -/
def Fails (s : State) (c : ErrorCode) : Prop :=
  (∃ d, decode s.snapshot.cmd = .error d ∧ c = errorOfDecode d) ∨
    ∃ i, decode s.snapshot.cmd = .ok i ∧ checkInstr i s = some c

/-- The completion step ends with an error or with the effect of the command. -/
theorem completion_next {s t : State} (h : completion s = .next t) :
    (∃ c : ErrorCode, Fails s c ∧ t = s.completeError c.code) ∨
      ∃ i, decode s.snapshot.cmd = .ok i ∧ checkInstr i s = none ∧ t = s.completeOk (effectOf Config.tables i s) := by
  rcases completion_cases s with ⟨d, hdec, hd⟩ | ⟨i, hi, ⟨c, hs, hc⟩ | ⟨hn, hc⟩⟩
  · exact .inl ⟨_, .inl ⟨d, hdec, rfl⟩, by rw [hd] at h; injection h with h; exact h.symm⟩
  · exact .inl ⟨c, .inr ⟨i, hi, hs⟩, by rw [hc] at h; injection h with h; exact h.symm⟩
  · exact .inr ⟨i, hi, hn, by rw [hc] at h; injection h with h; exact h.symm⟩

/-- The ways a move ends in a next state. -/
inductive MoveEffect (s : State) : Move → State → Prop where
  /-- A host access. -/
  | access (a : BusAccess) (u : State) (hu : AccessEffect s a u) (r : BusResponse) :
      MoveEffect s (.access a) (u.respond r)
  /-- The turn of an idle engine. -/
  | idle (hb : s.busy = false) : MoveEffect s .engine s
  /-- A completion with an error. -/
  | failed (hb : s.busy = true) (c : ErrorCode) (hc : Fails s c) : MoveEffect s .engine (s.completeError c.code)
  /-- A completion with success. -/
  | succeeded (hb : s.busy = true) (i : Instr) (hi : decode s.snapshot.cmd = .ok i) (hc : checkInstr i s = none) :
      MoveEffect s .engine (s.completeOk (effectOf Config.tables i s))
  /-- The reset input. -/
  | hardReset : MoveEffect s .hardReset s.resetAction
  /-- Power-on. -/
  | powerOn : MoveEffect s .powerOn s.powerOnAction

theorem engineTurn_effect {s t : State} (h : engineTurn s = .next t) : MoveEffect s .engine t := by
  rcases engineTurn_cases s with ⟨hb, he⟩ | ⟨hb, he⟩
  · rw [he] at h
    injection h with h
    subst h
    exact .idle hb
  · rw [he] at h
    rcases completion_next h with ⟨c, hc, rfl⟩ | ⟨i, hi, hc, rfl⟩
    · exact .failed hb c hc
    · exact .succeeded hb i hi hc

theorem move_effect {m : Move} {s t : State} (h : move m s = .next t) : MoveEffect s m t := by
  cases m with
  | access a =>
    injection h with h
    subst h
    exact .access a _ (accessAt_effect s a) _
  | engine => exact engineTurn_effect h
  | hardReset =>
    injection h with h
    subst h
    exact .hardReset
  | powerOn =>
    injection h with h
    subst h
    exact .powerOn

/-- A step is its move, at the state with that move taken off the agenda. -/
theorem step_eq (s : State) : step s = move s.nextMove { s with agenda := s.agenda.tail } := rfl

theorem step_effect {s t : State} (h : step s = .next t) :
    MoveEffect { s with agenda := s.agenda.tail } s.nextMove t := move_effect h

end Sys2Proof.Machine
end

