-- ==== Sys2Proof/Machine/HostProgram.lean ====
section
/-! DEFINITION. The lines of a host program as the moves they make (spec/30_encoding.md R92). Host variables, labels and
`goto` belong to the host; XCORE sees only the accesses. -/

namespace Sys2Proof.Machine

/-- The lines that access XCORE. `polls` is how many times the loop of a POLL reads STATUS before the engine's turn
comes, which the schedule decides (R253). -/
inductive HostLine where
  /-- `WR <reg>, <v32>`. -/
  | wr (r : Reg) (v : Word)
  /-- `RD <reg> -> <t>`. -/
  | rd (r : Reg)
  /-- `WB <a>, <b0> <b1> ...`. -/
  | wb (a : Nat) (bytes : List Byte)
  /-- `RB <a>, <n> -> <t>`. -/
  | rb (a n : Nat)
  /-- `POLL`. -/
  | poll (polls : Nat)
  /-- `RUN <command>`. -/
  | run (i : Instr) (polls : Nat)
  deriving DecidableEq, Repr

/-- An aligned 32-bit access to a register. -/
def regAccess (r : Reg) (op : BusOp) : Move := .access ⟨BitVec.ofNat 17 r.offset, .word, op⟩

/-- An 8-bit access to a MEM address. DESIGN CHOICE: an address of 0x10000 or more lies outside XCORE's window, the spec
gives such a line no meaning, and the offset wraps at 17 bits (notes/assumptions/19.md). -/
def byteAccess (a : Nat) (op : BusOp) : Move := .access ⟨BitVec.ofNat 17 (0x10000 + a), .byte, op⟩

/-- 8-bit writes of the bytes to `a`, `a+1`, and so on. -/
def byteWrites : Nat → List Byte → List Move
  | _, [] => []
  | a, b :: bs => byteAccess a (.write (b.setWidth 32)) :: byteWrites (a + 1) bs

/-- The reads of a POLL: `polls` of them before the engine's turn, one after it. -/
def pollMoves (polls : Nat) : List Move :=
  List.replicate polls (regAccess .status .read) ++ [.engine, regAccess .status .read]

/-- The moves of a line (R92). -/
def HostLine.moves : HostLine → List Move
  | .wr r v => [regAccess r (.write v)]
  | .rd r => [regAccess r .read]
  | .wb a bytes => byteWrites a bytes
  | .rb a n => (List.range n).map fun i => byteAccess (a + i) .read
  | .poll polls => pollMoves polls
  | .run i polls => regAccess .cmd (.write (encode i)) :: pollMoves polls

end Sys2Proof.Machine
end

