-- ==== Sys2Proof/Tests/Cand.lean ====
section
/-! SUPPORT. The candidate instance CAND of the constant tables (spec/93_implementation_defined.md section 3): for tests
only. It is not the source's tables (spec/90_conflicts.md C8), and no definition of the model uses it. -/

namespace Sys2Proof.Tests

def candSboxCRows : List Nat :=
  [0x637C777BF26B6FC53001672BFED7AB76CA82C97DFA5947F0ADD4A2AF9CA472C0,
   0xB7FD9326363FF7CC34A5E5F171D8311504C723C31896059A071280E2EB27B275,
   0x09832C1A1B6E5AA0523BD6B329E32F8453D100ED20FCB15B6ACBBE394A4C58CF,
   0xD0EFAAFB434D338545F9027F503C9FA851A3408F929D38F5BCB6DA2110FFF3D2,
   0xCD0C13EC5F974417C4A77E3D645D197360814FDC222A908846EEB814DE5E0BDB,
   0xE0323A0A4906245CC2D3AC629195E479E7C8376D8DD54EA96C56F4EA657AAE08,
   0xBA78252E1CA6B4C6E8DD741F4BBD8B8A703EB5664803F60E613557B986C11D9E,
   0xE1F8981169D98E949B1E87E9CE5528DF8CA1890DBFE6426841992D0FB054BB16]

def candSboxCIRows : List Nat :=
  [0x52096AD53036A538BF40A39E81F3D7FB7CE339829B2FFF87348E4344C4DEE9CB,
   0x547B9432A6C2233DEE4C950B42FAC34E082EA16628D924B2765BA2496D8BD125,
   0x72F8F66486689816D4A45CCC5D65B6926C704850FDEDB9DA5E154657A78D9D84,
   0x90D8AB008CBCD30AF7E45805B8B34506D02C1E8FCA3F0F02C1AFBD0301138A6B,
   0x3A9111414F67DCEA97F2CFCEF0B4E67396AC7422E7AD3585E2F937E81C75DF6E,
   0x47F11A711D29C5896FB7620EAA18BE1BFC563E4BC6D279209ADBC0FE78CD5AF4,
   0x1FDDA8338807C731B11210592780EC5F60517FA919B54A0D2DE57A9F93C99CEF,
   0xA0E03B4DAE2AF5B0C8EBBB3C83539961172B047EBA77D626E169146355210C7D]

def candSboxHRows : List Nat :=
  [0x1823C6E887B8014F36A6D2F5796F915260BC9B8EA30C7B351DE0D7C22E4BFE57,
   0x157737E59FF04ADA58C9290AB1A06B85BD5D10F4CB3E0567E427418BA77D95D8,
   0xFBEE7C66DD17479ECA2DBF07AD5A83336302AA71C81949D9F2E35B889A2632B0,
   0xE90FD580BECD3448FF7A905F20681AAEB454932264F173124008C3ECDBA18D3D,
   0x9700CF2B7682D61BB5AF6A5045F330EF3F55A2EA65BA2FC0DE1CFD4D9275068A,
   0xB2E60E1F62D4A896F9C525598472394C5E78388CD1A5E261B3219C1E43C7FC04,
   0x51996D0DFADF7E243BABCE118F4EB7EB3C8194F7B9132CD3E76EC40356447FA9,
   0x2ABBC153DC0B9D6C3174F646AC8914E1163A690970B6D0EDCC4298A4285CF886]

/-- Entry `x` of a table written as eight numbers of 32 bytes each. -/
def entry (rows : List Nat) (x : Byte) : Byte :=
  BitVec.ofNat 8 (rows.getD (x.toNat / 32) 0 >>> (8 * (31 - x.toNat % 32)))

/-- The matrix whose rows are written as numbers of `n` bytes each. -/
def matrix {n : Nat} (rows : List Nat) (i k : Fin n) : Byte :=
  BitVec.ofNat 8 (rows.getD i.val 0 >>> (8 * (n - 1 - k.val)))

/-- `RCON_C`: powers of x (section 3.2). -/
def candRconC : Nat → Byte
  | 0 => 0
  | 1 => 1
  | n + 2 => Machine.xtime 0x1B (candRconC (n + 1))

/-- CAND (section 3). -/
def cand : Tables where
  sboxC := entry candSboxCRows
  sboxCI := entry candSboxCIRows
  sboxH := entry candSboxHRows
  mixCS := matrix [0x02030101, 0x01020301, 0x01010203, 0x03010102]
  mixCF := matrix [0x0E0B0D09, 0x090E0B0D, 0x0D090E0B, 0x0B0D090E]
  mixHS := matrix [0x0101040108050209, 0x0901010401080502, 0x0209010104010805, 0x0502090101040108,
    0x0805020901010401, 0x0108050209010104, 0x0401080502090101, 0x0104010805020901]
  modC := 0x1B
  modH := 0x1D
  rconC := candRconC
  rconH := fun r => Vector.ofFn fun i : Fin 8 => entry candSboxHRows (BitVec.ofNat 8 (8 * (r - 1) + i.val))
  ivH := Vector.replicate 64 0

end Sys2Proof.Tests
end

