-- ==== Sys2Proof/Tests/Slice0.lean ====
section
/-! SUPPORT. The model's own tests. Every expected value is written out from the spec: command words from the field tables
of spec/30_encoding.md, results from the vectors of spec/95_test_vectors.md (named in each comment). Vectors that depend
on the tables run under CAND, which stands in for the tables' argument of an effect. Then one state for each statement
of Obligations.lean that meets its hypotheses. -/

namespace Sys2Proof.Tests

open Sys2Proof.Machine

/-! ### Helpers -/

/-- The `n` bytes written as one number, first byte most significant. -/
def hex (n v : Nat) : List Byte := (List.range n).map fun i => BitVec.ofNat 8 (v >>> (8 * (n - 1 - i)))

/-- `b, b + 1, ...`: `n` bytes. -/
def counting (n : Nat) : List Byte := (List.range n).map (BitVec.ofNat 8)

/-- A run of written bytes from an address on. -/
def listed : Nat → List Byte → Memory
  | _, [] => []
  | a, b :: bs => (a, b) :: listed (a + 1) bs

/-- A running command with these arguments latched. -/
def running (mem : Memory) (src dst len key klen : Nat) (cmd : Word := 0) : State :=
  { State.reset with
    cmd := cmd
    busy := true
    mem := mem
    snapshot := { Snapshot.empty with
      cmd := cmd
      src := BitVec.ofNat 32 src
      dst := BitVec.ofNat 32 dst
      len := BitVec.ofNat 32 len
      key := BitVec.ofNat 32 key
      klen := BitVec.ofNat 32 klen } }

/-- "TestsPassed". -/
def passed : List Byte := hex 11 0x5465737473506173736564

/-- The source's 32-byte key (V-XKC-1). -/
def key32 : List Byte := hex 32 0x603EEB1015CA71BE2B73AEF0857D77811F352C073B6108D72D9810A30914DFF4

/-- A 16-byte key (V-XKC-2). -/
def key16 : List Byte := hex 16 0x2B7E151628AED2A6ABF7158809CF4F3C

/-! ### WellFormed: the one ill-formed kind of term, for each of its shapes (R84, R90) -/

theorem test_wellFormed_refuses_mixcol4_hs (m : Byte) : (Instr.mixcol .four .hs m).wellFormed = false := rfl

theorem test_wellFormed_refuses_mixcol8_cs (m : Byte) : (Instr.mixcol .eight .cs m).wellFormed = false := rfl

theorem test_wellFormed_refuses_mixcol8_cf (m : Byte) : (Instr.mixcol .eight .cf m).wellFormed = false := rfl

/-! ### Decode: words laid out field by field as R81 draws them: reserved [31:24], IMM8 [23:16], reserved [15:12],
TSEL [11:10], DIR [9], ORD [8], OPC [7:0] -/

theorem test_decode_primitives :
    decodeTableWord 32 0b00000000_00000000_0000_00_0_0_00000000 = some .nop ∧
    decodeTableWord 32 0b00000000_00011011_0000_00_0_0_00000001 = some (.gfmul 0x1B) ∧
    decodeTableWord 32 0b00000000_00000000_0000_00_0_0_00000010 = some (.subst .c) ∧
    decodeTableWord 32 0b00000000_00000000_0000_01_0_0_00000010 = some (.subst .ci) ∧
    decodeTableWord 32 0b00000000_00000000_0000_10_0_0_00000010 = some (.subst .h) ∧
    decodeTableWord 32 0b00000000_11111111_0000_00_1_0_00000011 = some (.rotrow 255 .bwd) ∧
    decodeTableWord 32 0b00000000_00000001_0000_00_0_0_00000011 = some (.rotrow 1 .fwd) ∧
    decodeTableWord 32 0b00000000_00000000_0000_00_1_0_00000100 = some (.shrows .four .bwd) ∧
    decodeTableWord 32 0b00000000_00000000_0000_00_0_1_00000100 = some (.shrows .eight .fwd) := by decide +kernel

theorem test_decode_mixcol_addb :
    decodeTableWord 32 0b00000000_00011011_0000_00_0_0_00000101 = some (.mixcol .four .cs 0x1B) ∧
    decodeTableWord 32 0b00000000_10000001_0000_01_0_0_00000101 = some (.mixcol .four .cf 0x81) ∧
    decodeTableWord 32 0b00000000_00011101_0000_10_0_1_00000101 = some (.mixcol .eight .hs 0x1D) ∧
    decodeTableWord 32 0b00000000_00000000_0000_00_0_0_00000110 = some .addb ∧
    decodeTableWord 32 0b00000000_00000000_0000_00_0_0_00000111 = some .addbt := by decide +kernel

theorem test_decode_key_schedules :
    decodeTableWord 32 0b00000000_00000000_0000_00_0_0_00010000 = some .xkeyc ∧
    decodeTableWord 32 0b00000000_00000000_0000_00_0_0_00010001 = some .xkeyh := by decide +kernel

theorem test_decode_xae :
    decodeTableWord 32 0b00000000_00000000_0000_00_0_0_00100000 = some .xaeencr ∧
    decodeTableWord 32 0b00000000_00000000_0000_00_0_0_00100001 = some .xaedecr ∧
    decodeTableWord 32 0b00000000_00000000_0000_00_0_0_00100010 = some .xaeenc ∧
    decodeTableWord 32 0b00000000_00000000_0000_00_0_0_00100011 = some .xaedec := by decide +kernel

theorem test_decode_xwh :
    decodeTableWord 32 0b00000000_00000000_0000_00_0_0_00110000 = some .xwhrnd ∧
    decodeTableWord 32 0b00000000_00000000_0000_00_0_0_00110001 = some .xwhcmp ∧
    decodeTableWord 32 0b00000000_00000000_0000_00_0_0_00110010 = some .xwhhash := by decide +kernel

/-- E1 to E3b: an unallocated opcode beats set high bits, a reserved bit beats a reserved select. -/
theorem test_decode_refuses :
    decode 0x00000008 = .error .illegalOpcode ∧ decode 0xFF0000FF = .error .illegalOpcode ∧
    decode 0x00000100 = .error .reservedField ∧ decode 0x01000010 = .error .reservedField ∧
    decode 0x00001C05 = .error .reservedField ∧ decode 0x00010103 = .error .reservedField ∧
    decode 0x00000C02 = .error .badSelect ∧ decode 0x001D0805 = .error .badSelect ∧
    decode 0x00000105 = .error .badSelect := by decide +kernel

/-- R91: the pseudo-instructions under CAND's modulus bytes. -/
theorem test_pseudo : encode (Pseudo.mixci.expand cand) = 0x001B0405 ∧ encode (Pseudo.mixh.expand cand) = 0x001D0905 ∧
    encode (Pseudo.rotw.expand cand) = 0x00010003 ∧ encode (Pseudo.shr4i.expand cand) = 0x00000204 := by decide +kernel

/-! ### The commands, by the vectors of section 2 -/

/-- V-NOP-1. -/
theorem test_nop : complete .nop (running [] 0 0 0 0 0) nopEffect =
    { running [] 0 0 0 0 0 with busy := false, done := true } := by decide

/-- V-GF-1, rows 1, 6, 8, 9, 10, 13 and 14. -/
theorem test_gfmul : [gfMul 0x57 0x83 0x1B, gfMul 0x80 0x02 0x1B, gfMul 0x80 0x02 0x00, gfMul 0xFF 0xFF 0x1B,
    gfMul 0xFF 0xFF 0x1D, gfMul 0x09 0x0E 0x1D, gfMul 0xC1 0x03 0x00] = [0xC1, 0x1B, 0, 0x13, 0xE2, 0x7E, 0x43] := by
  decide +kernel

/-- V-GF-2: only the low bytes of OPA and OPB are used. -/
theorem test_gfmul_low_bytes :
    let s := { running [] 0 0 0 0 0 with
      snapshot := { Snapshot.empty with opa := 0xFFFFFF57, opb := 0x12345683 } }
    (complete (.gfmul 0x1B) s (gfmulEffect 0x1B s)).result = 0xC1 := by decide +kernel

/-- V-SUB-1. -/
theorem test_subst_c :
    let s := running (listed 0 (hex 4 0x000153FF)) 0 0x20 4 0 0
    (complete (.subst .c) s (substEffect cand .c s)).readBytes 0x20 4 = hex 4 0x637CED16 := by decide +kernel

/-- V-SUB-3, in place, with OUTLEN. -/
theorem test_subst_h :
    let s := running (listed 0 (hex 3 0x0001FF)) 0 0 3 0 0
    let t := complete (.subst .h) s (substEffect cand .h s)
    t.readBytes 0 3 = hex 3 0x182386 ∧ t.outlen = 3 := by decide +kernel

/-- V-ROT-7 and V-ROT-9. -/
theorem test_rotrow_fwd :
    rotateRow (counting 10) 3 .fwd = hex 10 0x03040506070809000102 ∧
    rotateRow (counting 10) 255 .fwd = hex 10 0x05060708090001020304 := by decide

/-- V-ROT-8. -/
theorem test_rotrow_bwd :
    let s := running (listed 0 (counting 10)) 0 0x20 10 0 0
    (complete (.rotrow 3 .bwd) s (rotrowEffect 3 .bwd s)).readBytes 0x20 10 = hex 10 0x07080900010203040506 := by
  decide +kernel

/-- V-SHR-2; LEN is ignored. -/
theorem test_shrows_four_bwd :
    let s := running (listed 0 (counting 16)) 0 0 0 0 0
    (complete (.shrows .four .bwd) s (shrowsEffect .four .bwd s)).readBytes 0 16 =
      hex 16 0x000102030704050_60A0B08090D0E0F0C := by decide +kernel

/-- V-SHR-3, rows 1, 3 and 7. -/
theorem test_shrows_eight_fwd :
    let x := shiftRows (counting 64) 8 .fwd
    slice x 8 8 = hex 8 0x090A0B0C0D0E0F08 ∧ slice x 24 8 = hex 8 0x1B1C1D1E1F18191A ∧
      slice x 56 8 = hex 8 0x3F38393A3B3C3D3E := by decide +kernel

/-- V-MIX-1. -/
theorem test_mixcol_cs :
    let s := running (listed 0 (hex 16 0xDBF2012D130A0126532201_31455C014C)) 0 0x20 0 0 0
    (complete (.mixcol .four .cs 0x1B) s (mixcolEffect cand .four .cs 0x1B s)).readBytes 0x20 16 =
      hex 16 0x8E9F014D4DDC017EA15801BDBC9D01F8 := by decide +kernel

/-- V-MIX-4: byte 29 alone, under the hash matrix. -/
theorem test_mixcol_hs :
    let y := mixColumns ((List.replicate 64 0).set 29 2) 8 cand.mixHS 0x1D
    [y.getD 5 0, y.getD 13 0, y.getD 21 0, y.getD 29 0, y.getD 37 0, y.getD 45 0, y.getD 53 0, y.getD 61 0, y.getD 4 0] =
      [0x02, 0x08, 0x02, 0x02, 0x12, 0x04, 0x0A, 0x10, 0] := by decide +kernel

/-- V-ADD-1. -/
theorem test_addb :
    let s := running (listed 0 (hex 3 0x0FF0AA) ++ listed 8 (hex 3 0xFFFF55)) 0 0x20 3 8 0
    (complete .addb s (addbEffect s)).readBytes 0x20 3 = hex 3 0xF00FFF := by decide +kernel

/-- V-ADD-2. -/
theorem test_addbt :
    let s := running (listed 0 (hex 5 0x0102030405) ++ listed 8 (hex 2 0x1020)) 0 0x20 5 8 2
    (complete .addbt s (addbtEffect s)).readBytes 0x20 5 = hex 5 0x1122030405 := by decide +kernel

/-- V-ADD-3: the third key byte is ignored. -/
theorem test_addbt_long_key : addTrunc (hex 2 0x0102) (hex 3 0x102030) = hex 2 0x1122 := by decide

/-- V-XKC-1, round keys 2 and 14. -/
theorem test_xkeyc :
    let s := running (listed 0 key32) 0 0x100 0 0 32
    let t := complete .xkeyc s (xkeycEffect cand s)
    t.readBytes 0x120 16 = hex 16 0x9BA054118E6A25AFA5198B5F2064FCDE ∧
      t.readBytes 0x1E0 16 = hex 16 0xA8253A5FE6758D85526DF3CA706C6390 ∧ t.outlen = 240 := by decide +kernel

/-- V-XKC-5: seven words, the midpoint at `i mod 7 = 3`. -/
theorem test_xkeyc_seven_words :
    slice (expandCipherKey cand (counting 28)) 28 28 =
      hex 28 0xD5A3ADAED1A6ABA9D9AFA1A239743C3529652E263D70383125_69222A ∧
    slice (expandCipherKey cand (counting 28)) 236 4 = hex 4 0xD1B482AA := by decide +kernel

/-- V-XKH-1, the start of block 1, and the fit of V-XKH-2. -/
theorem test_xkeyh :
    let k := nextHashKey cand 1 (List.replicate 64 0)
    slice k 0 9 = hex 9 0x300BEEC0AF90296728 ∧
      checkInstr .xkeyh (running [] 0 0xFD40 0 0 0) = none ∧
      checkInstr .xkeyh (running [] 0 0xFD41 0 0 0) = some .range := by decide +kernel

/-- V-XR-3, both ways. -/
theorem test_xaeencr :
    let s := running (listed 0 (counting 16) ++ listed 0x10 (List.replicate 16 0xFF)) 0 0x20 0 0x10 0
    (complete .xaeencr s (xaeencrEffect cand s)).readBytes 0x20 16 = hex 16 0x9563A2AE95DE9ED3A3A34F92BAD826CC := by
  decide +kernel

theorem test_xaedecr :
    let s := running (listed 0 (hex 16 0x9563A2AE95DE9ED3A3A34F92BAD826CC) ++ listed 0x10 (List.replicate 16 0xFF))
      0 0x20 0 0x10 0
    (complete .xaedecr s (xaedecrEffect cand s)).readBytes 0x20 16 = counting 16 := by decide +kernel

/-- V-XAE-1. -/
theorem test_xaeenc :
    let s := running (listed 0 passed ++ listed 0x100 key32) 0 0x200 11 0x100 32
    let t := complete .xaeenc s (xaeencEffect cand s)
    t.readBytes 0x200 17 = hex 17 0xB587E71EA708C7B49EC2148926046FB705 ∧ t.outlen = 17 := by decide +kernel

/-- V-XAE-3: one byte, a 16-byte key, a pad count of 15. -/
theorem test_xaeenc_one_byte :
    xaeEncrypt cand [0] key16 = hex 17 0x21E9DD7F710D1D77AED33818351F432B0F := by decide +kernel

/-- V-XAE-1's decryption: 11 bytes, and the byte after them stays (U12). -/
theorem test_xaedec :
    let s := running (listed 0 (hex 17 0xB587E71EA708C7B49EC2148926046FB705) ++ listed 0x100 key32 ++
      listed 0x30B [0xFF]) 0 0x300 17 0x100 32
    let t := complete .xaedec s (xaedecEffect cand s)
    t.readBytes 0x300 11 = passed ∧ t.byteAt 0x30B = 0xFF ∧ t.outlen = 11 := by decide +kernel

/-- E8b and E9: the range beats the pad marker, and the marker is checked last. -/
theorem test_xaedec_marker :
    checkInstr .xaedec (running (listed 16 [0x10]) 0 0xFFF8 17 0 32) = some .range ∧
    checkInstr .xaedec (running (listed 16 [0x10]) 0 0x100 17 0 32) = some .padMarker ∧
    checkInstr .xaedec (running (listed 16 [0x0F]) 0 0x100 17 0 32) = none := by decide +kernel

/-- V-XWR-1. -/
theorem test_xwhrnd :
    let s := running (listed 0 (List.replicate 64 0)) 0 0x40 0 0 0
    (complete .xwhrnd s (xwhrndEffect cand s)).readBytes 0x40 64 = List.replicate 64 0x28 := by decide +kernel

/-- V-XWC-2: the block and the chaining value are not exchanged. -/
theorem test_xwhcmp_operands :
    let s := running (listed 0 (hex 4 0x33616263 ++ List.replicate 60 0x52) ++ listed 0x40 (List.replicate 64 0))
      0 0x40 0 0x40 0
    (complete .xwhcmp s (xwhcmpEffect cand s)).readBytes 0x40 16 = hex 16 0xEDD022884D228A97E79A08FCC3A1F59B := by
  decide +kernel

/-- V-XWH-5. -/
theorem test_xwhhash :
    let s := running (listed 0 (hex 3 0x616263)) 0 0x40 3 0 0
    (complete .xwhhash s (xwhhashEffect cand s)).readBytes 0x40 64 =
      hex 32 0xEDD022884D228A97E79A08FCC3A1F59B97070685577B07E095978F314B010159 ++
      hex 32 0x12C238C0E89697A5098B800445E08E87271D1AD2DB5F4151845D4B4AA0C2F6DB := by decide +kernel

/-- The blocks of V-XWH-1 to V-XWH-4. -/
theorem test_xwhhash_blocks :
    blockCount cand passed = 1 ∧ blockCount cand [] = 1 ∧ blockCount cand (List.replicate 62 0x61) = 1 ∧
      blockCount cand (List.replicate 63 0x61) = 2 := by decide +kernel

/-! ### One host access each (H2 to H4, H6) -/

/-- H2: a write to CMD while a command runs sets DROP and keeps the word. -/
theorem test_drop :
    step { running [] 0 0 0 0 0 0x06 with agenda := [.access ⟨0x004, .word, .write 5⟩] } =
      .next { running [] 0 0 0 0 0 0x06 with drop := true, responses := [.okay] } := rfl

/-- H3: an 8-bit window read while a command runs answers 0 and sets LOCKV. -/
theorem test_lockv :
    step { running [(0, 7)] 0 0 0 0 0 with agenda := [.access ⟨0x10000, .byte, .read⟩] } =
      .next { running [(0, 7)] 0 0 0 0 0 with lockv := true, responses := [.data 0] } := rfl

/-- H4: a 16-bit read of STATUS, an 8-bit write to CMD and an access at 0x01000 are bus errors. -/
theorem test_bus_errors :
    (State.reset.accessAt ⟨0x008, .half, .read⟩ = (State.reset, .busError)) ∧
    (State.reset.accessAt ⟨0x004, .byte, .write 0⟩ = (State.reset, .busError)) ∧
    (State.reset.accessAt ⟨0x1000, .word, .read⟩ = (State.reset, .busError)) := by decide

/-- R64: a 32-bit window write puts its low byte at the lowest address, and a 16-bit read gives it back. -/
theorem test_window :
    let t := (State.reset.accessAt ⟨0x10004, .word, .write 0x11223344⟩).1
    t.mem = [(4, 0x44), (5, 0x33), (6, 0x22), (7, 0x11)] ∧
      (t.accessAt ⟨0x10006, .half, .read⟩).2 = .data 0x1122 := by decide

/-- P4's STATUS values: CT_SIZE, then DONE and ERR cleared with ERRCODE kept. -/
theorem test_status :
    let t := (running [] 0 0 16 0 32).completeError ErrorCode.ctSize.code
    t.statusWord = 0x00000706 ∧ (t.clearStatus 6).statusWord = 0x00000700 := by decide

/-- H6: IRQ is 0 after the launch and 1 after the completion, with IE set; a STATUS write of 2 drops it. -/
theorem test_irq :
    let s := { State.reset with ie := true, done := true }
    (s.launch 0).irq = false ∧ (complete .nop (s.launch 0) nopEffect).irq = true ∧ (s.clearStatus 2).irq = false := by
  decide

/-- R92: the moves of `RUN NOP` that polls once before the engine's turn. -/
theorem test_run_moves : (HostLine.run .nop 1).moves =
    [.access ⟨0x004, .word, .write 0⟩, .access ⟨0x008, .word, .read⟩, .engine, .access ⟨0x008, .word, .read⟩] := rfl

/-! ### Hypotheses met: the command word and the step -/

theorem witness_DecodeOfEncode :
    (Instr.mixcol .eight .hs 0xFF).wellFormed = true ∧ (Instr.rotrow 0xFF .bwd).wellFormed = true := ⟨rfl, rfl⟩

theorem witness_EncodeOfDecode : decode 0x00FF0203 = .ok (.rotrow 0xFF .bwd) := by decide +kernel

/-- Each error, at the edges of the unallocated opcodes; any word can be the one that was latched. -/
theorem witness_DecodeChecksInOrder :
    (∀ c ∈ [0x08, 0x0F, 0x12, 0x1F, 0x24, 0x2F, 0x33, 0xFF], decode (BitVec.ofNat 32 c) = .error .illegalOpcode) ∧
    (∀ c ∈ [0x00000107, 0x80000010, 0x00001032], decode (BitVec.ofNat 32 c) = .error .reservedField) ∧
    (∀ c ∈ [0x00000C02, 0x00000C05, 0x00000805, 0x00000105], decode (BitVec.ofNat 32 c) = .error .badSelect) ∧
    ∀ c, (running [] 0 0 0 0 0 c).snapshot.cmd = c :=
  ⟨by decide +kernel, by decide +kernel, by decide +kernel, fun _ => rfl⟩

theorem witness_AssemblerAcceptsTheCommands :
    assemble .mixcol [.order .eight, .mixTable .hs, .imm 255] = some (.mixcol .eight .hs 255) ∧
      (Instr.mixcol .eight .hs 255).wellFormed = true ∧ MixTable.cf.order ≠ .eight ∧ 255 < 256 ∧ 255 ≤ 255 := by decide

theorem witness_StepRunsTheDecodedCommand :
    (running [] 0 0 0 0 0 0x06).nextMove = .engine ∧ (running [] 0 0 0 0 0 0x06).busy = true ∧
      decode (running [] 0 0 0 0 0 0x06).snapshot.cmd = .ok .addb ∧
      decode (BitVec.ofNat 32 (0x001B0405 % 2 ^ 32)) = .ok (.mixcol .four .cf 0x1B) := by decide +kernel

theorem witness_ErrorCompletionIsPrecise :
    completion (running [] 0 0 0 0 0 0x00000100) = .next ((running [] 0 0 0 0 0 0x00000100).completeError 2) ∧
      ((running [] 0 0 0 0 0 0x00000100).completeError 2).errcode ≠ 0 := ⟨rfl, by decide⟩

/-- ADDB of one byte with itself, and a byte outside its output region. -/
theorem witness_SuccessFrame :
    let s := running [(0, 1)] 0 0x20 1 0 0 0x06
    exec .addb s = .next (s.completeOk ⟨0x20, [0], 0⟩) ∧ (s.completeOk ⟨0x20, [0], 0⟩).errcode = 0 ∧
      ¬ (outputRegion .addb s.snapshot).Has 0x21 := by
  refine ⟨rfl, rfl, ?_⟩
  rintro ⟨-, h⟩
  revert h
  decide

/-- One error of each kind of check, E8c's second input region and E9 among them, and a success. -/
theorem witness_LowestErrorIsReported :
    (∀ c ∈ [(0x08, 1), (0x100, 2), (0xC02, 3), (0x10, 4), (0x06, 5)],
      completion (running [] 0 0 0 0 0 c.1) = .next ((running [] 0 0 0 0 0 c.1).completeError c.2)) ∧
    completion (running [] 0 0xFFFFFFFF 0 0 32 0x22) = .next ((running [] 0 0xFFFFFFFF 0 0 32 0x22).completeError 6) ∧
    completion (running [] 0 0 16 0 32 0x23) = .next ((running [] 0 0 16 0 32 0x23).completeError 7) ∧
    completion (running [] 0xFFC1 0 0 0 0 0x30) = .next ((running [] 0xFFC1 0 0 0 0 0x30).completeError 8) ∧
    completion (running [] 0 0x20 2 0xFFFF 2 0x07) = .next ((running [] 0 0x20 2 0xFFFF 2 0x07).completeError 8) ∧
    completion (running [(16, 16)] 0 0x100 17 0 32 0x23) =
      .next ((running [(16, 16)] 0 0x100 17 0 32 0x23).completeError 9) ∧
    completion (running [] 0 0 0 0 0 0) = .next ((running [] 0 0 0 0 0 0).completeOk ⟨0, [], 0⟩) := by
  refine ⟨?_, rfl, rfl, rfl, rfl, rfl, rfl⟩
  intro c hc
  simp only [List.mem_cons, List.not_mem_nil, or_false] at hc
  rcases hc with rfl | rfl | rfl | rfl | rfl <;> rfl

/-! ### Hypotheses met: the commands, with regions that end at the end of MEM -/

/-- For SUBST and ROTROW. -/
theorem witness_SubstCompletes : let p := (running [] 0xFFF0 0 16 0 0).snapshot
    p.len.toNat ≠ 0 ∧ p.src.toNat + p.len.toNat ≤ 65536 ∧ p.dst.toNat + p.len.toNat ≤ 65536 := by decide

theorem witness_RotrowCompletes : let p := (running [] 0 0xFFFF 1 0 0).snapshot
    p.len.toNat ≠ 0 ∧ p.src.toNat + p.len.toNat ≤ 65536 ∧ p.dst.toNat + p.len.toNat ≤ 65536 := by decide

theorem witness_ShrowsCompletes : let p := (running [] 0xFFC0 0xFFC0 0 0 0).snapshot
    ∀ o : Order, (o = .four ∨ o = .eight) →
      p.src.toNat + o.side * o.side ≤ 65536 ∧ p.dst.toNat + o.side * o.side ≤ 65536 := by
  rintro p o (rfl | rfl) <;> decide

/-- The second clause for each matrix, and the first. -/
theorem witness_MixcolCompletes : let p := (running [] 0xFFC0 0xFFC0 0 0 0).snapshot
    MixTable.hs.order ≠ .four ∧ ∀ t ∈ [MixTable.cs, .cf, .hs],
      p.src.toNat + t.order.side * t.order.side ≤ 65536 ∧ p.dst.toNat + t.order.side * t.order.side ≤ 65536 := by decide

theorem witness_AddbCompletes : let p := (running [] 0 0xFFFC 4 0xFFFC 0).snapshot
    p.len.toNat ≠ 0 ∧ p.src.toNat + p.len.toNat ≤ 65536 ∧ p.key.toNat + p.len.toNat ≤ 65536 ∧
      p.dst.toNat + p.len.toNat ≤ 65536 := by decide

/-- KLEN = 0 with a KEY outside MEM (V-ADD-4), and a key that ends at the end of MEM. -/
theorem witness_AddbtCompletes : ∀ p ∈ [(running [] 0 0x20 2 0xFFFFFFFF 0).snapshot, (running [] 0 0x20 2 0xFFFD 3).snapshot],
    p.len.toNat ≠ 0 ∧ p.src.toNat + p.len.toNat ≤ 65536 ∧
      (p.klen.toNat = 0 ∨ p.key.toNat + p.klen.toNat ≤ 65536) ∧ p.dst.toNat + p.len.toNat ≤ 65536 := by decide

theorem witness_XkeycCompletes : ∀ n ∈ [4, 32], let p := (running [] 0 0xFF10 0 0 n).snapshot
    KeyLength p.klen.toNat ∧ p.key.toNat + p.klen.toNat ≤ 65536 ∧ p.dst.toNat + 240 ≤ 65536 := by
  unfold KeyLength
  decide

theorem witness_XkeyhCompletes : let p := (running [] 0xFFC0 0xFD40 0 0 0).snapshot
    p.src.toNat + 64 ≤ 65536 ∧ p.dst.toNat + 704 ≤ 65536 := by decide

theorem witness_XaeRoundsComplete : let p := (running [] 0xFFF0 0 0 0x10 0).snapshot
    p.src.toNat + 16 ≤ 65536 ∧ p.key.toNat + 16 ≤ 65536 ∧ p.dst.toNat + 16 ≤ 65536 := by decide

theorem witness_XaeencCompletes : ∀ n ∈ [1, 16, 17], let p := (running [] 0 0x100 n 0xFFE0 32).snapshot
    KeyLength p.klen.toNat ∧ p.len.toNat ≠ 0 ∧ p.src.toNat + p.len.toNat ≤ 65536 ∧
      p.key.toNat + p.klen.toNat ≤ 65536 ∧ p.dst.toNat + (16 * ((p.len.toNat + 15) / 16) + 1) ≤ 65536 := by
  unfold KeyLength
  decide

/-- Both ends of the pad count. -/
theorem witness_XaedecCompletes : ∀ b ∈ [(0 : Byte), 15], let s := running [(16, b)] 0 0xFFF0 17 0 4
    KeyLength s.snapshot.klen.toNat ∧ 17 ≤ s.snapshot.len.toNat ∧ (s.snapshot.len.toNat - 1) % 16 = 0 ∧
      s.snapshot.src.toNat + s.snapshot.len.toNat ≤ 65536 ∧ s.snapshot.key.toNat + s.snapshot.klen.toNat ≤ 65536 ∧
      s.snapshot.dst.toNat + (s.snapshot.len.toNat - 1) ≤ 65536 ∧
      (s.byteAt (s.snapshot.src.toNat + s.snapshot.len.toNat - 1)).toNat ≤ 15 := by
  unfold KeyLength
  decide

theorem witness_XwhRoundAndCompressionComplete : let p := (running [] 0xFFC0 0 0 0x40 0).snapshot
    p.src.toNat + 64 ≤ 65536 ∧ p.key.toNat + 64 ≤ 65536 ∧ p.dst.toNat + 64 ≤ 65536 := by decide

/-- V-XWH-7: no message at all, at any SRC; and one that fills MEM. -/
theorem witness_XwhhashCompletes :
    ∀ p ∈ [(running [] 0xFFFFFFFF 0xFFC0 0 0 0).snapshot, (running [] 0 0 65536 0 0).snapshot],
      (p.len.toNat = 0 ∨ p.src.toNat + p.len.toNat ≤ 65536) ∧ p.dst.toNat + 64 ≤ 65536 := by decide

/-! ### Hypotheses met: host accesses -/

/-- A machine whose next move is this access. -/
def facing (busy : Bool) (a : BusAccess) : State := { State.reset with busy := busy, agenda := [.access a] }

theorem witness_CmdWriteLaunchesOrIsDropped : ∀ b,
    (facing b ⟨0x004, .word, .write 6⟩).agenda = .access ⟨0x004, .word, .write 6⟩ :: [] ∧
      (facing b ⟨0x004, .word, .write 6⟩).busy = b := fun _ => ⟨rfl, rfl⟩

theorem witness_StatusWriteClearsFlags :
    (facing false ⟨0x008, .word, .write 0x1E⟩).agenda = .access ⟨0x008, .word, .write 0x1E⟩ :: [] := rfl

/-- IE alone, and a soft reset that also writes 1 to IE. -/
theorem witness_CtrlWriteStoresIe :
    (∀ v, (facing true ⟨0x00C, .word, .write v⟩).agenda = .access ⟨0x00C, .word, .write v⟩ :: []) ∧
      (1 : Word).getLsbD 1 = false ∧ (3 : Word).getLsbD 1 = true := ⟨fun _ => rfl, rfl, rfl⟩

theorem witness_ResetSetsEveryRegister :
    Resets { State.reset with busy := true, agenda := [.hardReset] }.nextMove ∧
      Resets { State.reset with agenda := [.powerOn] }.nextMove ∧
      Resets (facing true ⟨0x00C, .word, .write 3⟩).nextMove :=
  ⟨.inl rfl, .inr (.inl rfl), .inr (.inr ⟨3, rfl, rfl⟩)⟩

theorem witness_ReservedOffsetsDoNothing :
    (∀ a, (facing false a).agenda = .access a :: []) ∧ ∀ n ∈ [0x034, 0xFFC],
      0x034 ≤ (BitVec.ofNat 17 n).toNat ∧ (BitVec.ofNat 17 n).toNat ≤ 0xFFC ∧ (BitVec.ofNat 17 n).toNat % 4 = 0 :=
  ⟨fun _ => rfl, by decide⟩

/-- Each of the three clauses, at its edges. -/
theorem witness_BusErrorsChangeNothing :
    (∀ a ∈ [BusAccess.mk 0xFFF .byte .read, ⟨0x002, .word, .read⟩],
      a.offset.toNat < 0x1000 ∧ (a.size ≠ .word ∨ a.offset.toNat % 4 ≠ 0)) ∧
    (∀ a ∈ [BusAccess.mk 0x1000 .word .read, ⟨0xFFFF, .byte, .read⟩],
      0x1000 ≤ a.offset.toNat ∧ a.offset.toNat < 0x10000) ∧
    ∀ a ∈ [BusAccess.mk 0x10001 .half .read, ⟨0x1FFFE, .word, .write 0⟩],
      (facing true a).agenda = .access a :: [] ∧ 0x10000 ≤ a.offset.toNat ∧ a.offset.toNat % a.size.bytes ≠ 0 := by decide

/-- For both states of the window. -/
theorem witness_WindowIsLockedWhileBusy : ∀ a ∈ [BusAccess.mk 0x10000 .word .read, ⟨0x1FFFF, .byte, .write 7⟩],
    (facing true a).agenda = .access a :: [] ∧ (facing true a).busy = true ∧ 0x10000 ≤ a.offset.toNat ∧
      a.offset.toNat % a.size.bytes = 0 := by decide

theorem witness_WindowIsLittleEndian : ∀ a ∈ [BusAccess.mk 0x1FFFC .word .read, ⟨0x10002, .half, .write 0x1234⟩],
    (facing false a).agenda = .access a :: [] ∧ (facing false a).busy = false ∧ 0x10000 ≤ a.offset.toNat ∧
      a.offset.toNat % a.size.bytes = 0 := by decide

theorem witness_RegisterAccess : ∀ (o : BitVec 17) (op : BusOp),
    (facing true ⟨o, .word, op⟩).agenda = .access ⟨o, .word, op⟩ :: [] := fun _ _ => rfl

/-! ### Hypotheses met: reset and the rules of the whole machine -/

/-- A reset of ADDB while it runs, which would have succeeded, and of one that would have failed. -/
theorem witness_ResetAbortsTheCommand :
    let s := { running [(0, 1)] 0 0x20 1 0 0 0x06 with agenda := [.hardReset] }
    let f := { running [] 0 0x20 0 0 0 0x06 with agenda := [.hardReset] }
    (Resets s.nextMove ∧ s.nextMove ≠ .powerOn ∧ s.busy = true ∧ step s = .next { s.resetAction with agenda := [] } ∧
      completion s = .next (s.completeOk ⟨0x20, [0], 0⟩)) ∧
    Resets f.nextMove ∧ f.busy = true ∧ step f = .next { f.resetAction with agenda := [] } ∧
      completion f = .next (f.completeError 5) :=
  ⟨⟨.inl rfl, by decide, rfl, rfl, rfl⟩, .inl rfl, rfl, rfl, rfl⟩

theorem witness_ResetAndPowerOnMem :
    let s := { State.reset with mem := [(0, 1)], agenda := [.hardReset] }
    let f := { State.reset with mem := [(0, 1)], agenda := [.powerOn] }
    (Resets s.nextMove ∧ s.nextMove ≠ .powerOn ∧ s.busy = false ∧ step s = .next { s with agenda := [] }) ∧
      f.nextMove = .powerOn ∧ step f = .next { f with mem := [], powerOns := 1, agenda := [] } :=
  ⟨⟨.inl rfl, by decide, rfl, rfl⟩, rfl, rfl⟩

/-- A completion that changes byte 0x20, and a window write that changes byte 0. -/
theorem witness_MemChangesOnlyByTheRules :
    (∃ t, step (running [(0, 1), (0x20, 9)] 0 0x20 1 0 0 0x06) = .next t ∧
      t.byteAt 0x20 ≠ (running [(0, 1), (0x20, 9)] 0 0x20 1 0 0 0x06).byteAt 0x20) ∧
    ∃ t, step { facing false ⟨0x10000, .byte, .write 7⟩ with mem := [(0, 1)] } = .next t ∧
      t.byteAt 0 ≠ { facing false ⟨0x10000, .byte, .write 7⟩ with mem := [(0, 1)] }.byteAt 0 :=
  ⟨⟨_, rfl, by decide +kernel⟩, _, rfl, by decide +kernel⟩

/-- A launch, and a completion. -/
theorem witness_BusyAndCmdLifecycle :
    (∃ t, step (facing false ⟨0x004, .word, .write 6⟩) = .next t ∧ t.busy = true ∧ t.cmd ≠ State.reset.cmd) ∧
      ∃ t, step (running [] 0 0 0 0 0 6) = .next t ∧ t.busy = false :=
  ⟨⟨_, rfl, rfl, by decide⟩, _, rfl, rfl⟩

/-- A completion with an error, a launch while ERR = 1, and a STATUS write that clears it. -/
theorem witness_ErrIsSticky :
    (∃ t, step (running [] 0 0 0 0 0 6) = .next t ∧ (running [] 0 0 0 0 0 6).nextMove = .engine ∧ t.err ≠ false) ∧
      WritesReg { facing false ⟨0x004, .word, .write 0⟩ with err := true }.nextMove .cmd 0 ∧
      WritesReg { facing false ⟨0x008, .word, .write 4⟩ with err := true }.nextMove .status 4 ∧
      (4 : Word).getLsbD 2 = true :=
  ⟨⟨_, rfl, rfl, by decide⟩, rfl, rfl, rfl⟩

/-- A dropped CMD write, the STATUS writes that clear the two flags, and a locked access. -/
theorem witness_DropAndLockvLifecycle :
    (WritesReg (facing true ⟨0x004, .word, .write 6⟩).nextMove .cmd 6 ∧
      ∃ t, step (facing true ⟨0x004, .word, .write 6⟩) = .next t ∧ t.drop ≠ State.reset.drop) ∧
      (WritesReg (facing false ⟨0x008, .word, .write 0x18⟩).nextMove .status 0x18 ∧ (0x18 : Word).getLsbD 3 = true ∧
        (0x18 : Word).getLsbD 4 = true) ∧
      ReachesMem ⟨0x1FFFC, .word, .read⟩ ∧
      ∃ t, step (facing true ⟨0x1FFFC, .word, .read⟩) = .next t ∧ t.lockv ≠ State.reset.lockv :=
  ⟨⟨rfl, _, rfl, by decide⟩, ⟨rfl, rfl, rfl⟩, ⟨by decide, by decide, by decide⟩, _, rfl, by decide⟩

/-- A completion, a launch and a STATUS write, from states where each changes DONE; ERRCODE cleared by a launch. -/
theorem witness_DoneAndErrcodeLifecycle :
    (∃ t, step (running [] 0 0 0 0 0 6) = .next t ∧ t.done ≠ false ∧ t.errcode ≠ 0) ∧
    (∃ t, step { facing false ⟨0x004, .word, .write 6⟩ with done := true, errcode := 5 } = .next t ∧ t.done ≠ true ∧
      t.errcode ≠ 5) ∧
    WritesReg { facing false ⟨0x008, .word, .write 2⟩ with done := true }.nextMove .status 2 ∧
      (2 : Word).getLsbD 1 = true :=
  ⟨⟨_, rfl, by decide, by decide⟩, ⟨_, rfl, by decide, by decide⟩, rfl, rfl⟩

/-- GFMUL, another command, and a word that is none. -/
theorem witness_ResultIsWrittenByCompletions :
    (∃ t, step (running [] 0 0 0 0 0 0x001B0001) = .next t) ∧
    decode (running [] 0 0 0 0 0 0x001B0001).snapshot.cmd = .ok (.gfmul 0x1B) ∧
    (∀ m, (Except.ok .nop : Except DecodeError Instr) ≠ .ok (.gfmul m)) ∧
    decode (running [] 0 0 0 0 0 0).snapshot.cmd = .ok .nop ∧
    (∃ t, step { running [] 0 0 0 0 0 0 with result := 7 } = .next t ∧ t.result ≠ 7) ∧
    decode (running [] 0 0 0 0 0 8).snapshot.cmd = .error .illegalOpcode :=
  ⟨⟨_, rfl⟩, by decide +kernel, fun _ h => (nomatch h), by decide +kernel, ⟨_, rfl, by decide⟩, by decide +kernel⟩

/-- IRQ falling by a launch and by a STATUS write, and rising by a completion and by a CTRL write. -/
theorem witness_IrqRisesAndFalls :
    let s := { running [] 0 0 0 0 0 with ie := true }
    let f := { facing false ⟨0x00C, .word, .write 1⟩ with done := true }
    (WritesReg (facing false ⟨0x004, .word, .write 0⟩).nextMove .cmd 0 ∧
      WritesReg (facing false ⟨0x008, .word, .write 2⟩).nextMove .status 2 ∧ (2 : Word).getLsbD 1 = true) ∧
      (s.nextMove = .engine ∧ s.busy = true ∧ s.ie = true ∧ s.irq = false ∧ ∃ t, step s = .next t ∧ t.irq = true) ∧
      WritesReg f.nextMove .ctrl 1 ∧ (1 : Word).getLsbD 1 = false ∧ (1 : Word).getLsbD 0 = true ∧ f.done = true ∧
      f.irq = false ∧ ∃ t, step f = .next t ∧ t.irq = true :=
  ⟨⟨rfl, rfl, rfl⟩, ⟨rfl, rfl, rfl, rfl, _, rfl, rfl⟩, rfl, rfl, rfl, rfl, rfl, _, rfl, rfl⟩

/-- A running ADDB with these moves to come. -/
def racing (moves : List Move) : State := { running [(0, 1)] 0 0x20 1 0 0 0x06 with agenda := moves }

/-- A write of DST, and one of CTRL.IE, around the completion of ADDB. -/
theorem witness_ArgumentWritesDoNotReachTheRunningCommand :
    ∀ rv ∈ [(Reg.dst, (0x40 : Word)), (Reg.ctrl, 1)],
      let w := regAccess rv.1 (.write rv.2)
      (racing []).busy = true ∧ WritesReg w rv.1 rv.2 ∧
        (rv.1 ∈ [Reg.src, .dst, .len, .key, .klen, .opa, .opb] ∨ (rv.1 = .ctrl ∧ rv.2.getLsbD 1 = false)) ∧
        (∃ s1, step (racing [w, .engine]) = .next s1 ∧ ∃ s2, step s1 = .next s2) ∧
        ∃ u1, step (racing [.engine, w]) = .next u1 ∧ ∃ u2, step u1 = .next u2 := by
  intro rv h
  simp only [List.mem_cons, List.not_mem_nil, or_false] at h
  rcases h with rfl | rfl
  · refine ⟨rfl, rfl, by decide, ?_, ?_⟩ <;> refine ⟨_, rfl, ?_⟩ <;> exact ⟨_, rfl⟩
  · refine ⟨rfl, rfl, by decide, ?_, ?_⟩ <;> refine ⟨_, rfl, ?_⟩ <;> exact ⟨_, rfl⟩

/-- The invariant's premise, at a state that is not reset: a running ADDB with listed bytes. -/
theorem witness_EveryStepKeepsTheInvariant :
    (running [(0, 1)] 0 0x20 1 0 0 0x06).Inv ∧ ∃ t, step (running [(0, 1)] 0 0x20 1 0 0 0x06) = .next t :=
  ⟨⟨by decide, by decide, fun _ => rfl, fun _ => rfl, fun _ => rfl, by decide, by decide⟩, _, rfl⟩

/-! ### Hypotheses met: the pure functions -/

theorem witness_RotationFormulas : [(1 : Byte)] ≠ [] ∧ 0 < [(1 : Byte)].length := by decide

/-- A pair of S-boxes that invert each other, with the identity matrices. -/
def invertibleTables : Tables :=
  { cand with mixCS := fun i k => if i = k then 1 else 0, mixCF := fun i k => if i = k then 1 else 0, modC := 0 }

theorem gfMul_one (b : Byte) : gfMul 1#8 b 0#8 = b := by
  revert b
  decide +kernel

theorem gfMul_zero (b : Byte) : gfMul 0#8 b 0#8 = 0#8 := by
  revert b
  decide +kernel

theorem mixColumns_identity (x : List Byte) (h : x.length = 16) :
    mixColumns x 4 (fun i k => if i = k then 1 else 0) 0 = x := by
  match x, h with
  | [a0, a1, a2, a3, a4, a5, a6, a7, a8, a9, a10, a11, a12, a13, a14, a15], _ =>
    simp [mixColumns, mixByte, List.finRange, List.ofFn, Fin.foldr, Fin.foldr.loop, gfMul_one, gfMul_zero]

theorem witness_Invertible : Invertible invertibleTables where
  sbox := by
    unfold SboxesInvert
    decide +kernel
  mix := by
    intro x h
    have e := mixColumns_identity
    rw [show mixColumns x 4 invertibleTables.mixCS invertibleTables.modC = x from e x h]
    exact e x h

theorem witness_TransformsUndo :
    (counting 16).length = Order.four.side * Order.four.side ∧ (counting 64).length = Order.eight.side * Order.eight.side ∧
      ([0x0F] : List Byte).length = ([0xFF] : List Byte).length ∧ SboxesInvert invertibleTables ∧
      MatricesInvert invertibleTables ∧ (counting 16).length = 16 :=
  ⟨rfl, rfl, rfl, witness_Invertible.sbox, witness_Invertible.mix, rfl⟩

theorem witness_InverseRoundUndoesRound :
    Invertible invertibleTables ∧ (counting 16).length = 16 ∧ (List.replicate 16 (0xFF : Byte)).length = 16 :=
  ⟨witness_Invertible, rfl, rfl⟩

theorem witness_DecryptionUndoesEncryption :
    Invertible invertibleTables ∧ passed ≠ [] ∧ KeyLength key32.length ∧ KeyLength (counting 4).length :=
  ⟨witness_Invertible, by decide, by unfold KeyLength; decide, by unfold KeyLength; decide⟩

/-- A sequence from its first member and the rule for the next. -/
def chain (next : Nat → List Byte → List Byte) (x : List Byte) : Nat → List Byte
  | 0 => x
  | n + 1 => next n (chain next x n)

/-- The states of any block under any schedule; two blocks of padded plaintext, and ciphertexts of one block with each end
of the marker. -/
theorem witness_CiphertextBlocks (T : Tables) (x ks : List Byte) :
    (KeyLength (counting 16).length ∧ 1 < (pad (counting 17) 16).1.length / 16 ∧
      ∃ xs : Nat → List Byte, xs 0 = x ∧ ∀ i < 15, xs (i + 1) = encRound T (xs i) (slice ks (16 * i) 16)) ∧
    (∀ m ∈ [0, 15], (counting 16 ++ [BitVec.ofNat 8 m]).length = 16 * 1 + 1 ∧
      ((counting 16 ++ [BitVec.ofNat 8 m]).getD (16 * 1) 0).toNat ≤ 15) ∧ 16 * 0 + 15 < 16 * 1 - 0 ∧
      ∃ xs : Nat → List Byte, xs 0 = x ∧ ∀ i < 15, xs (i + 1) = decRound T (xs i) (slice ks (16 * (14 - i)) 16) :=
  ⟨⟨by unfold KeyLength; decide, by rw [pad]; decide,
    chain (fun i y => encRound T y (slice ks (16 * i) 16)) x, rfl, fun _ _ => rfl⟩,
    by decide, by decide, chain (fun i y => decRound T y (slice ks (16 * (14 - i)) 16)) x, rfl, fun _ _ => rfl⟩

/-- For a key of 7 words, an index of each branch. -/
theorem witness_CipherScheduleRule :
    KeyLength (counting 28).length ∧ 14 % 7 = 0 ∧ (6 < 7 ∧ 59 % 7 = 7 / 2) ∧ 58 % 7 ≠ 0 ∧ 58 % 7 ≠ 7 / 2 := by
  unfold KeyLength
  decide

theorem witness_HashScheduleRule : (counting 64).length = 64 := rfl

/-- The chaining values of a message of two blocks. -/
theorem witness_DigestIsTheLastChainingValue (T : Tables) (msg : List Byte) :
    ∃ H : Nat → List Byte, H 0 = T.ivH.toList ∧
      ∀ i, 1 ≤ i → i ≤ 2 → H i = compress T (H (i - 1)) (slice (paddedBuffer T msg) (64 * i) 64) :=
  ⟨chain (fun i H => compress T H (slice (paddedBuffer T msg) (64 * (i + 1)) 64)) T.ivH.toList, rfl, by
    rintro (_ | i) h _
    · omega
    · rfl⟩

theorem witness_CompressionRule (T : Tables) : (counting 64).length = 64 ∧ ∃ C : Nat → List Byte, C 0 = counting 64 ∧
    ∀ r < 11, C (r + 1) = hashRound T (C r) (slice (expandHashKey T (counting 64)) (64 * r) 64) :=
  ⟨rfl, chain (fun r C => hashRound T C (slice (expandHashKey T (counting 64)) (64 * r) 64)) (counting 64), rfl,
    fun _ _ => rfl⟩

end Sys2Proof.Tests
end

section
/-! SUPPORT. The engine's turn at a decoded command word (spec/00_scope.md R15, spec/30_encoding.md R95). -/

namespace Sys2Proof.Machine

/-- The completion step of a word that decodes runs its command (R95). -/
theorem completion_of_decode_ok {s : State} {i : Instr} (h : decode s.snapshot.cmd = .ok i) :
    completion s = exec i s := by
  simp only [completion, h]

/-- The engine's turn is enabled while BUSY = 1 (R15). -/
theorem engineTurn_of_busy {s : State} (h : s.busy = true) : engineTurn s = completion s := by
  simp only [engineTurn, h, if_true]

/-- The engine's turn while BUSY = 1 is the completion step, taken once the agenda has moved on. -/
theorem step_of_engine_busy {s : State} (hm : s.nextMove = .engine) (hb : s.busy = true) :
    step s = completion { s with agenda := s.agenda.tail } := by
  rw [step_eq, hm]
  exact engineTurn_of_busy hb

/-- The engine's turn with a decoded word latched runs that word's command. -/
theorem step_of_engine_decode {s : State} {i : Instr} (hm : s.nextMove = .engine) (hb : s.busy = true)
    (hd : decode s.snapshot.cmd = .ok i) : step s = exec i { s with agenda := s.agenda.tail } :=
  (step_of_engine_busy hm hb).trans (completion_of_decode_ok hd)

@[simp] theorem launchedWith_nextMove (s : State) (w : Word) : (launchedWith s w).nextMove = .engine := rfl
@[simp] theorem launchedWith_busy (s : State) (w : Word) : (launchedWith s w).busy = true := rfl
@[simp] theorem launchedWith_snapshot_cmd (s : State) (w : Word) : (launchedWith s w).snapshot.cmd = w := rfl

/-- Taking the engine's turn off the agenda of `launchedWith` leaves the launched state. -/
theorem launchedWith_agenda_tail (s : State) (w : Word) :
    { launchedWith s w with agenda := (launchedWith s w).agenda.tail } = s.launch w := rfl

/-- After a launch of a word that decodes, the next step runs its command at the launched state. -/
theorem step_launchedWith {s : State} {w : Word} {i : Instr} (hd : decode w = .ok i) :
    step (launchedWith s w) = exec i (s.launch w) := by
  rw [← launchedWith_agenda_tail s w]
  exact step_of_engine_decode (launchedWith_nextMove s w) (launchedWith_busy s w)
    (by rw [launchedWith_snapshot_cmd, hd])

/-- Settles O6: the engine's turn is the completion step, which runs the decoded command; `withFetchWord` is such a state. -/
theorem stepRunsTheDecodedCommand : Obligations.StepRunsTheDecodedCommand := by
  unfold Obligations.StepRunsTheDecodedCommand
  constructor
  · intro s i hm hb hd
    exact step_of_engine_decode hm hb hd
  · intro s nbits w i hd
    exact step_launchedWith hd

end Sys2Proof.Machine
end

section
/-! SUPPORT. What a step does whose move is a host access, a register write or a reset, and which causes a step can have:
the layer under the life cycles of the STATUS fields (spec/10_state.md R21 to R38). -/

namespace Sys2Proof.Machine

/-! ### The registers after a reset -/

/-- Every register, flag and the launch snapshot stand at their reset values (R48, R241). -/
def State.Cleared (t : State) : Prop := t.clearRegisters = t

section
variable {t : State}

theorem State.Cleared.result (h : t.Cleared) : t.result = 0 := congrArg State.result h.symm
theorem State.Cleared.outlen (h : t.Cleared) : t.outlen = 0 := congrArg State.outlen h.symm
theorem State.Cleared.ie (h : t.Cleared) : t.ie = false := congrArg State.ie h.symm
theorem State.Cleared.busy (h : t.Cleared) : t.busy = false := congrArg State.busy h.symm
theorem State.Cleared.done (h : t.Cleared) : t.done = false := congrArg State.done h.symm
theorem State.Cleared.err (h : t.Cleared) : t.err = false := congrArg State.err h.symm
theorem State.Cleared.drop (h : t.Cleared) : t.drop = false := congrArg State.drop h.symm
theorem State.Cleared.lockv (h : t.Cleared) : t.lockv = false := congrArg State.lockv h.symm
theorem State.Cleared.errcode (h : t.Cleared) : t.errcode = 0 := congrArg State.errcode h.symm

/-- Every register but ID reads 0 after a reset (R48). -/
theorem State.Cleared.readReg (h : t.Cleared) {r : Reg} (hr : r ≠ .id) : t.readReg r = 0 := by
  rw [← h]
  cases r with
  | id => exact absurd rfl hr
  | status => simp [State.readReg, State.statusWord, flagBit]
  | _ => rfl

end

theorem State.reset_cleared : State.reset.Cleared := rfl

theorem State.resetAction_cleared (s : State) : s.resetAction.Cleared := by
  rw [resetAction_clears s]
  rfl

theorem State.powerOnAction_cleared (s : State) : s.powerOnAction.Cleared := rfl

theorem State.Cleared.respond {t : State} (h : t.Cleared) (r : BusResponse) : (t.respond r).Cleared :=
  congrArg (fun u : State => u.respond r) h

/-! ### The register writes with two cases -/

theorem writeReg_ctrl_of_srst (s : State) {v : Word} (h : v.getLsbD 1 = true) :
    s.writeReg .ctrl v = s.resetAction := if_pos h

theorem writeReg_ctrl_of_not_srst (s : State) {v : Word} (h : v.getLsbD 1 = false) :
    s.writeReg .ctrl v = { s with ie := v.getLsbD 0 } := by
  simp only [State.writeReg, State.writeCtrl, h, Bool.false_eq_true, if_false]

theorem writeReg_cmd_of_busy {s : State} (v : Word) (h : s.busy = true) :
    s.writeReg .cmd v = { s with drop := true } := if_pos h

theorem writeReg_cmd_of_idle {s : State} (v : Word) (h : s.busy = false) : s.writeReg .cmd v = s.launch v := by
  simp only [State.writeReg, State.writeCmd, h, Bool.false_eq_true, if_false]

/-! ### Clearing a flag by writing 1 to its bit (R30) -/

theorem and_not_of_bit (x : Bool) {b : Bool} (h : b = true) : (x && !b) = false := by
  rw [h, Bool.not_true, Bool.and_false]

theorem bit_of_and_not_ne {x b : Bool} (h : (x && !b) ≠ x) : b = true := by
  cases b with
  | true => rfl
  | false => exact absurd (Bool.and_true x) h

theorem and_not_eq_ite (x b : Bool) : (x && !b) = if b then false else x := by
  cases b with
  | true => exact Bool.and_false x
  | false => exact Bool.and_true x

/-- The state with the move that is made taken off the agenda. -/
abbrev State.dequeued (s : State) : State := { s with agenda := s.agenda.tail }

/-! ### The step of a host access -/

theorem nextMove_of_agenda {s : State} {m : Move} {rest : List Move} (h : s.agenda = m :: rest) : s.nextMove = m := by
  simp only [State.nextMove, h, List.headD_cons]

theorem step_of_access {s : State} {a : BusAccess} (h : s.nextMove = .access a) :
    step s = .next (s.dequeued.hostAccess a) := by
  rw [step_eq, h]
  rfl

theorem step_of_agenda {s : State} {a : BusAccess} {rest : List Move} (h : s.agenda = .access a :: rest) :
    step s = .next (State.hostAccess { s with agenda := rest } a) := by
  rw [step_of_access (nextMove_of_agenda h), State.dequeued, h, List.tail_cons]

/-- The step of an aligned 32-bit read at a register's offset (R22, R69). -/
theorem step_of_reg_read {s : State} {r : Reg} {rest : List Move}
    (h : s.agenda = .access ⟨BitVec.ofNat 17 r.offset, .word, .read⟩ :: rest) :
    step s = .next { s with agenda := rest, responses := .data (s.readReg r) :: s.responses } := by
  rw [step_of_agenda h, hostAccess_read_reg]
  cases r <;> rfl

/-- The step of an aligned 32-bit write at a register's offset (R22). -/
theorem step_of_reg_write {s : State} {r : Reg} {v : Word} {rest : List Move}
    (h : s.agenda = .access ⟨BitVec.ofNat 17 r.offset, .word, .write v⟩ :: rest) :
    step s = .next ((State.writeReg { s with agenda := rest } r v).respond .okay) := by
  rw [step_of_agenda h, hostAccess_write_reg]

theorem step_of_writesReg {s t : State} {r : Reg} {v : Word} (hw : WritesReg s.nextMove r v) (h : step s = .next t) :
    t = (s.dequeued.writeReg r v).respond .okay := by
  rw [step_of_access hw, hostAccess_write_reg] at h
  injection h with h
  exact h.symm

/-- A reset of any source clears the registers (R240, R241). -/
theorem cleared_of_resets {s t : State} (hr : Resets s.nextMove) (h : step s = .next t) : t.Cleared := by
  rcases hr with hm | hm | ⟨v, hw, hv⟩
  · rw [step_eq, hm] at h
    injection h with h
    exact h ▸ State.resetAction_cleared _
  · rw [step_eq, hm] at h
    injection h with h
    exact h ▸ State.powerOnAction_cleared _
  · rw [step_of_writesReg hw h]
    rw [writeReg_ctrl_of_srst _ hv]
    exact (State.resetAction_cleared _).respond _

/-- The engine's turn while BUSY = 1 ends with an error, or with the effect of the latched command (R95). -/
theorem step_of_completion {s t : State} (hm : s.nextMove = .engine) (hb : s.busy = true) (h : step s = .next t) :
    (∃ c : ErrorCode, Fails s.dequeued c ∧ t = s.dequeued.completeError c.code) ∨
      ∃ i, decode s.snapshot.cmd = .ok i ∧ checkInstr i s.dequeued = none ∧
        t = s.dequeued.completeOk (effectOf Config.tables i s.dequeued) :=
  completion_next ((step_of_engine_busy hm hb).symm.trans h)

/-- An access that reaches the register block is one to its word (R63). -/
theorem accessAt_reg (s : State) {a : BusAccess} (h : ReachesReg a) :
    s.accessAt a = s.accessReg a.offset.toNat a.op := by
  simp only [State.accessAt, h.block, h.size, h.aligned, and_self, if_true]

/-- A locked access to MEM sets LOCKV and does nothing else (R66). -/
theorem accessMem_of_busy {s : State} (o : Nat) (z : AccessSize) (op : BusOp) (h : s.busy = true) :
    (s.accessMem o z op).1 = { s with lockv := true } := by
  cases op <;> simp only [State.accessMem, h, if_true]

/-! ### The causes of a step -/

/-- CMD, the STATUS fields, RESULT and OUTLEN are the same in `t` as in `s`. -/
structure Quiet (s t : State) : Prop where
  cmd : t.cmd = s.cmd
  busy : t.busy = s.busy
  done : t.done = s.done
  err : t.err = s.err
  drop : t.drop = s.drop
  lockv : t.lockv = s.lockv
  errcode : t.errcode = s.errcode
  result : t.result = s.result
  outlen : t.outlen = s.outlen

/-- Why CMD, a STATUS field, RESULT or OUTLEN may differ after a step (R23 to R30, R36, R37). -/
inductive StepCause (s : State) : State → Prop where
  /-- None of them changes: a read, a bus error, a write of another register or of MEM, an idle engine. -/
  | quiet {t : State} (hq : Quiet s t) : StepCause s t
  /-- A CMD write while idle (R94). -/
  | launched (v : Word) (hw : WritesReg s.nextMove .cmd v) (hb : s.busy = false) :
      StepCause s ((s.dequeued.launch v).respond .okay)
  /-- A CMD write while a command runs (R216). -/
  | dropped (v : Word) (hw : WritesReg s.nextMove .cmd v) (hb : s.busy = true) :
      StepCause s (State.respond { s.dequeued with drop := true } .okay)
  /-- A STATUS write (R30). -/
  | flagsCleared (v : Word) (hw : WritesReg s.nextMove .status v) :
      StepCause s ((s.dequeued.clearStatus v).respond .okay)
  /-- A window access while a command runs (R66). -/
  | locked (a : BusAccess) (ha : s.nextMove = .access a) (hm : ReachesMem a) (hb : s.busy = true) (r : BusResponse) :
      StepCause s (State.respond { s.dequeued with lockv := true } r)
  /-- A completion (R95). -/
  | completed {t : State} (hm : s.nextMove = .engine) (hb : s.busy = true) (ht : t.busy = false)
      (hs : SameBeside s.dequeued t) : StepCause s t
  /-- A reset of any source (R240). -/
  | reset {t : State} (hr : Resets s.nextMove) (ht : t.Cleared) : StepCause s t

theorem completeError_sameBeside (s : State) (c : Byte) : SameBeside s (s.completeError c) := by
  constructor <;> rfl

theorem completeOk_sameBeside (s : State) (e : Effect) : SameBeside s (s.completeOk e) := by
  constructor <;> rfl

/-- The cause of a step that writes a register, register by register. -/
theorem writeReg_cause {s : State} {r : Reg} {v : Word} (hw : WritesReg s.nextMove r v) :
    StepCause s ((s.dequeued.writeReg r v).respond .okay) := by
  cases r with
  | cmd =>
    rcases s.busy.eq_false_or_eq_true with hb | hb
    · rw [writeReg_cmd_of_busy (s := s.dequeued) v hb]
      exact .dropped v hw hb
    · rw [writeReg_cmd_of_idle (s := s.dequeued) v hb]
      exact .launched v hw hb
  | status => exact .flagsCleared v hw
  | ctrl =>
    rcases (v.getLsbD 1).eq_false_or_eq_true with hv | hv
    · rw [writeReg_ctrl_of_srst _ hv]
      exact .reset (.inr (.inr ⟨v, hw, hv⟩)) ((State.resetAction_cleared _).respond _)
    · rw [writeReg_ctrl_of_not_srst _ hv]
      exact .quiet (by constructor <;> rfl)
  | _ => exact .quiet (by constructor <;> rfl)

theorem step_cause {s t : State} (h : step s = .next t) : StepCause s t := by
  have he := step_effect h
  generalize hm : s.nextMove = m at he
  cases he with
  | access a u hu r =>
    cases hu with
    | none => exact .quiet (by constructor <;> rfl)
    | regWrite r v ha =>
      subst ha
      rw [step_of_writesReg hm h]
      exact writeReg_cause hm
    | locked hr hb => exact .locked a hm hr hb r
    | memWrite v hr hb hop => exact .quiet (by constructor <;> rfl)
  | idle hb => exact .quiet (by constructor <;> rfl)
  | failed hb c hc => exact .completed hm hb rfl (completeError_sameBeside _ _)
  | succeeded hb i hi hc => exact .completed hm hb rfl (completeOk_sameBeside _ _)
  | hardReset => exact .reset (.inl hm) (State.resetAction_cleared _)
  | powerOn => exact .reset (.inr (.inl hm)) (State.powerOnAction_cleared _)

end Sys2Proof.Machine
end

section
/-! SUPPORT. The invariant of a run: it holds after reset, and every operation of the machine keeps it
(spec/10_state.md R23, R29, R36, R37, R39, R48, spec/20_memory.md R60). -/

namespace Sys2Proof.Machine

/-- The invariant holds where the registers are clear and MEM is in canonical form. -/
theorem State.Cleared.inv {t : State} (h : t.Cleared) (hm : Memory.wf t.mem = true) : t.Inv where
  mem_wf := hm
  errcode_le := by rw [h.errcode]; decide
  busy_done _ := h.done
  busy_errcode _ := h.errcode
  busy_cmd hb := absurd hb (by rw [h.busy]; decide)
  result_lt := by rw [h.result]; decide
  outlen_le := by rw [h.outlen]; decide

/-- An operation keeps the invariant that keeps its registers, sets no DONE and leaves MEM in canonical form. -/
theorem State.Inv.of_kept {s t : State} (h : s.Inv) (hm : Memory.wf t.mem = true) (hcmd : t.cmd = s.cmd)
    (hsnapshot : t.snapshot = s.snapshot) (hbusy : t.busy = s.busy) (hdone : s.done = false → t.done = false)
    (herrcode : t.errcode = s.errcode) (hresult : t.result = s.result) (houtlen : t.outlen = s.outlen) : t.Inv where
  mem_wf := hm
  errcode_le := herrcode ▸ h.errcode_le
  busy_done hb := hdone (h.busy_done (hbusy ▸ hb))
  busy_errcode hb := herrcode.trans (h.busy_errcode (hbusy ▸ hb))
  busy_cmd hb := by rw [hsnapshot, hcmd, h.busy_cmd (hbusy ▸ hb)]
  result_lt := hresult ▸ h.result_lt
  outlen_le := houtlen ▸ h.outlen_le

section
variable {s : State} (h : s.Inv)
include h

theorem State.Inv.setAgenda (ms : List Move) : State.Inv { s with agenda := ms } :=
  h.of_kept h.mem_wf rfl rfl rfl id rfl rfl rfl

theorem State.Inv.respond (r : BusResponse) : (s.respond r).Inv :=
  h.of_kept h.mem_wf rfl rfl rfl id rfl rfl rfl

theorem State.Inv.clearStatus (v : Word) : (s.clearStatus v).Inv := by
  refine h.of_kept h.mem_wf rfl rfl rfl (fun hd => ?_) rfl rfl rfl
  rw [State.clearStatus_done, hd, Bool.false_and]

/-- A launch latches the word that it stores in CMD, and clears DONE and ERRCODE (R94). -/
theorem State.Inv.launch (v : Word) : (s.launch v).Inv where
  mem_wf := h.mem_wf
  errcode_le := by rw [State.launch_errcode]; decide
  busy_done _ := rfl
  busy_errcode _ := rfl
  busy_cmd _ := rfl
  result_lt := h.result_lt
  outlen_le := h.outlen_le

theorem State.Inv.completeError (c : ErrorCode) : (s.completeError c.code).Inv where
  mem_wf := h.mem_wf
  errcode_le := c.code_le
  busy_done hb := absurd hb Bool.false_ne_true
  busy_errcode hb := absurd hb Bool.false_ne_true
  busy_cmd hb := absurd hb Bool.false_ne_true
  result_lt := by rw [State.completeError_result]; decide
  outlen_le := by rw [State.completeError_outlen]; decide

/-- A completion with success writes inside MEM, so OUTLEN is at most its size (R37, R213). -/
theorem State.Inv.completeOk {i : Instr} (hc : checkInstr i s = none) :
    (s.completeOk (effectOf Config.tables i s)).Inv where
  mem_wf := Memory.wf_writeBytes h.mem_wf (effect_inside _ hc)
  errcode_le := by rw [State.completeOk_errcode]; decide
  busy_done hb := absurd hb Bool.false_ne_true
  busy_errcode hb := absurd hb Bool.false_ne_true
  busy_cmd hb := absurd hb Bool.false_ne_true
  result_lt := effect_result_lt _ i s
  outlen_le := by
    have hlen : (effectOf Config.tables i s).bytes.length ≤ Config.memSize := by
      rcases effect_inside Config.tables hc with he | hl
      · rw [he]
        exact Nat.zero_le _
      · omega
    rw [State.completeOk_outlen, BitVec.toNat_ofNat]
    exact (Nat.mod_le _ _).trans hlen

theorem State.Inv.resetAction : s.resetAction.Inv := by
  refine s.resetAction_cleared.inv ?_
  rcases resetAction_cases s with ⟨-, hr⟩ | ⟨i, -, -, hc, -, hr⟩
  · rw [hr]
    exact h.mem_wf
  · rw [hr]
    exact Memory.wf_writeBytes h.mem_wf (abort_inside hc)

theorem State.Inv.writeReg (r : Reg) (v : Word) : (s.writeReg r v).Inv := by
  cases r with
  | cmd =>
    rcases s.busy.eq_false_or_eq_true with hb | hb
    · rw [writeReg_cmd_of_busy v hb]
      exact h.of_kept h.mem_wf rfl rfl rfl id rfl rfl rfl
    · rw [writeReg_cmd_of_idle v hb]
      exact h.launch v
  | status => exact h.clearStatus v
  | ctrl =>
    rcases (v.getLsbD 1).eq_false_or_eq_true with hv | hv
    · rw [writeReg_ctrl_of_srst s hv]
      exact h.resetAction
    · rw [writeReg_ctrl_of_not_srst s hv]
      exact h.of_kept h.mem_wf rfl rfl rfl id rfl rfl rfl
  | _ => exact h.of_kept h.mem_wf rfl rfl rfl id rfl rfl rfl

theorem State.Inv.access {a : BusAccess} {u : State} (hu : AccessEffect s a u) : u.Inv := by
  cases hu with
  | none => exact h
  | regWrite r v => exact h.writeReg r v
  | locked => exact h.of_kept h.mem_wf rfl rfl rfl id rfl rfl rfl
  | memWrite v hm =>
    refine h.of_kept ?_ rfl rfl rfl id rfl rfl rfl
    exact Memory.wf_writeBytes h.mem_wf (.inr (by rw [bytesOf_length]; exact hm.inside))

theorem State.Inv.move {m : Move} {t : State} (ht : MoveEffect s m t) : t.Inv := by
  cases ht with
  | access a u hu r => exact (h.access hu).respond r
  | idle => exact h
  | failed _ c => exact h.completeError c
  | succeeded _ i _ hc => exact h.completeOk hc
  | hardReset => exact h.resetAction
  | powerOn => exact s.powerOnAction_cleared.inv rfl

end

/-- Settles O47: a step is the effect of one move, and every such effect keeps the invariant. -/
theorem everyStepKeepsTheInvariant : Obligations.EveryStepKeepsTheInvariant := by
  unfold Obligations.EveryStepKeepsTheInvariant
  intro s t h ht
  exact (h.setAgenda _).move (step_effect ht)

/-- Settles O46: the reset state has clear registers and no MEM byte listed. -/
theorem resetMeetsTheInvariant : Obligations.ResetMeetsTheInvariant := by
  unfold Obligations.ResetMeetsTheInvariant
  exact State.reset_cleared.inv State.reset_mem_wf

end Sys2Proof.Machine
end

section
/-! SUPPORT. The life cycles of BUSY, CMD, ERR, DROP, LOCKV, DONE, ERRCODE, RESULT and OUTLEN: for each, what sets it and what
clears it, from the step of that cause, and that nothing else changes it, from `step_cause`
(spec/10_state.md R23 to R29, R36, R37). -/

namespace Sys2Proof.Machine

/-- Settles O39: of the causes of a step only a launch sets BUSY, only a completion and a reset clear it, and only a launch
and a reset touch CMD. -/
theorem busyAndCmdLifecycle : Obligations.BusyAndCmdLifecycle := by
  unfold Obligations.BusyAndCmdLifecycle
  intro s t h
  refine ⟨fun hs ht => ?_, fun hs ht => ?_, fun hne => ?_⟩
  · cases step_cause h with
    | launched v hw => exact ⟨v, hw, rfl⟩
    | quiet hq => exact absurd (hq.busy.symm.trans ht) (by rw [hs]; decide)
    | completed _ hb => exact absurd (hs.symm.trans hb) (by decide)
    | reset _ hc => exact absurd (hc.busy.symm.trans ht) (by decide)
    | _ => exact absurd (hs.symm.trans ht) (by decide)
  · cases step_cause h with
    | completed hm => exact .inl hm
    | reset hr => exact .inr hr
    | quiet hq => exact absurd (hs.symm.trans (hq.busy.symm.trans ht)) (by decide)
    | launched _ _ hb => exact absurd (hs.symm.trans hb) (by decide)
    | _ => exact absurd (hs.symm.trans ht) (by decide)
  · cases step_cause h with
    | launched v hw hb => exact .inl ⟨hb, v, hw, rfl⟩
    | reset hr => exact .inr hr
    | quiet hq => exact absurd hq.cmd hne
    | completed _ _ _ hs => exact absurd hs.cmd hne
    | _ => exact absurd rfl hne

/-- A completion sets ERR when its code is not 0, and else keeps it (R26, R95). -/
theorem err_of_completion {s t : State} (hm : s.nextMove = .engine) (hb : s.busy = true) (h : step s = .next t) :
    t.err = (s.err || decide (t.errcode ≠ 0)) := by
  rcases step_of_completion hm hb h with ⟨c, -, rfl⟩ | ⟨i, -, -, rfl⟩
  · rw [State.completeError_err, State.completeError_errcode, decide_eq_true c.code_ne_zero, Bool.or_true]
  · rw [State.completeOk_err, State.completeOk_errcode, decide_eq_false (not_not_intro rfl), Bool.or_false]

/-- A CMD write keeps ERR, whether it launches or is dropped (R26). -/
theorem err_of_cmd_write (s : State) (v : Word) : (s.writeReg .cmd v).err = s.err := by
  rcases s.busy.eq_false_or_eq_true with hb | hb
  · rw [writeReg_cmd_of_busy v hb]
  · rw [writeReg_cmd_of_idle v hb, State.launch_err]

/-- Settles O40: ERR is set by a completion with an error alone, and cleared by STATUS bit 2 and a reset alone. -/
theorem errIsSticky : Obligations.ErrIsSticky := by
  unfold Obligations.ErrIsSticky
  intro s t h
  refine ⟨fun hm hb => err_of_completion hm hb h, fun v hw => ?_, fun v hw hv => ?_,
    fun hr => (cleared_of_resets hr h).err, fun hne => ?_⟩
  · rw [step_of_writesReg hw h]
    exact err_of_cmd_write _ v
  · rw [step_of_writesReg hw h]
    exact and_not_of_bit s.err hv
  · cases step_cause h with
    | completed hm hb => exact .inl ⟨hm, hb⟩
    | flagsCleared v hw => exact .inr (.inl ⟨v, hw, bit_of_and_not_ne hne⟩)
    | reset hr => exact .inr (.inr hr)
    | quiet hq => exact absurd hq.err hne
    | _ => exact absurd rfl hne

/-- Settles O41: a CMD write sets DROP and an aligned window access sets LOCKV while BUSY = 1; the STATUS bits 3 and 4 and a
reset clear them. -/
theorem dropAndLockvLifecycle : Obligations.DropAndLockvLifecycle := by
  unfold Obligations.DropAndLockvLifecycle
  intro s t h
  refine ⟨fun v hw hb => ?_, fun v hw hv => ?_,
    fun hr => ⟨(cleared_of_resets hr h).drop, (cleared_of_resets hr h).lockv⟩, fun hne => ?_,
    fun a ha hm hb => ?_, fun v hw hv => ?_, fun hne => ?_⟩
  · rw [step_of_writesReg hw h, writeReg_cmd_of_busy (s := s.dequeued) v hb]
    rfl
  · rw [step_of_writesReg hw h]
    exact and_not_of_bit s.drop hv
  · cases step_cause h with
    | dropped v hw hb => exact .inl ⟨hb, v, hw⟩
    | flagsCleared v hw => exact .inr (.inl ⟨v, hw, bit_of_and_not_ne hne⟩)
    | reset hr => exact .inr (.inr hr)
    | quiet hq => exact absurd hq.drop hne
    | completed _ _ _ hs => exact absurd hs.drop hne
    | _ => exact absurd rfl hne
  · rw [step_of_access ha] at h
    injection h with h
    rw [← h, State.hostAccess, State.respond_lockv, accessAt_mem _ hm, accessMem_of_busy (s := s.dequeued) _ _ _ hb]
  · rw [step_of_writesReg hw h]
    exact and_not_of_bit s.lockv hv
  · cases step_cause h with
    | locked a ha hm hb => exact .inl ⟨hb, a, ha, hm⟩
    | flagsCleared v hw => exact .inr (.inl ⟨v, hw, bit_of_and_not_ne hne⟩)
    | reset hr => exact .inr (.inr hr)
    | quiet hq => exact absurd hq.lockv hne
    | completed _ _ _ hs => exact absurd hs.lockv hne
    | _ => exact absurd rfl hne

/-- Settles O42: a completion sets DONE; a launch, STATUS bit 1 and a reset clear it; and of these a completion, a launch and
a reset alone write ERRCODE. -/
theorem doneAndErrcodeLifecycle : Obligations.DoneAndErrcodeLifecycle := by
  unfold Obligations.DoneAndErrcodeLifecycle
  intro s t h
  refine ⟨fun hm hb => ?_, fun v hw hb => ?_, fun v hw hv => ?_,
    fun hr => ⟨(cleared_of_resets hr h).done, (cleared_of_resets hr h).errcode⟩, fun hne => ?_, fun hne => ?_⟩
  · rcases step_of_completion hm hb h with ⟨c, -, rfl⟩ | ⟨i, -, -, rfl⟩ <;> rfl
  · rw [step_of_writesReg hw h, writeReg_cmd_of_idle (s := s.dequeued) v hb]
    exact ⟨rfl, rfl⟩
  · rw [step_of_writesReg hw h]
    exact and_not_of_bit s.done hv
  · cases step_cause h with
    | completed hm hb => exact .inl ⟨hm, hb⟩
    | launched v hw hb => exact .inr (.inl ⟨hb, v, hw⟩)
    | flagsCleared v hw => exact .inr (.inr (.inl ⟨v, hw, bit_of_and_not_ne hne⟩))
    | reset hr => exact .inr (.inr (.inr hr))
    | quiet hq => exact absurd hq.done hne
    | _ => exact absurd rfl hne
  · cases step_cause h with
    | completed hm hb => exact .inl ⟨hm, hb⟩
    | launched v hw hb => exact .inr (.inl ⟨hb, v, hw⟩)
    | reset hr => exact .inr (.inr hr)
    | quiet hq => exact absurd hq.errcode hne
    | _ => exact absurd rfl hne

/-- GFMUL names no region and has no size to check, so it never fails (R111, R213). -/
theorem checkInstr_gfmul (m : Byte) (s : State) : checkInstr (.gfmul m) s = none := rfl

/-- Every command but GFMUL leaves 0 in RESULT when it succeeds (R36). -/
theorem effect_result_zero (T : Tables) {i : Instr} (s : State) (h : ∀ m, i ≠ .gfmul m) :
    (effectOf T i s).result = 0 := by
  cases i with
  | gfmul m => exact absurd rfl (h m)
  | _ => rfl

/-- The completion of GFMUL leaves the product in RESULT (R36, R111). -/
theorem result_of_gfmul {s t : State} {m : Byte} (hm : s.nextMove = .engine) (hb : s.busy = true)
    (h : step s = .next t) (hd : decode s.snapshot.cmd = .ok (.gfmul m)) :
    t.result = (gfMul s.snapshot.operandA s.snapshot.operandB m).setWidth 32 := by
  rw [step_of_engine_decode hm hb hd, exec_eq, complete_of_ok _ (checkInstr_gfmul m _)] at h
  injection h with h
  rw [← h]
  rfl

/-- Every other completion leaves 0 in RESULT (R36). -/
theorem result_of_not_gfmul {s t : State} (hm : s.nextMove = .engine) (hb : s.busy = true) (h : step s = .next t)
    (hd : ∀ m, decode s.snapshot.cmd ≠ .ok (.gfmul m)) : t.result = 0 := by
  rcases step_of_completion hm hb h with ⟨c, -, rfl⟩ | ⟨i, hi, -, rfl⟩
  · rfl
  · exact effect_result_zero _ _ fun m he => hd m (he ▸ hi)

/-- Settles O43: a completion and a reset are the only causes that write RESULT or OUTLEN. -/
theorem resultIsWrittenByCompletions : Obligations.ResultIsWrittenByCompletions := by
  unfold Obligations.ResultIsWrittenByCompletions
  intro s t h
  refine ⟨fun hm hb => ⟨fun m hd => result_of_gfmul hm hb h hd, fun hd => result_of_not_gfmul hm hb h hd⟩,
    fun hr => ⟨(cleared_of_resets hr h).result, (cleared_of_resets hr h).outlen⟩, fun hne => ?_⟩
  cases step_cause h with
  | completed hm hb => exact .inl ⟨hm, hb⟩
  | reset hr => exact .inr hr
  | quiet hq => exact hne.elim (absurd hq.result) (absurd hq.outlen)
  | _ => exact hne.elim (absurd rfl) (absurd rfl)

end Sys2Proof.Machine
end

section
/-! SUPPORT. The register map: the layout of STATUS, and the step of a read or a write at each offset of the register block
(spec/10_state.md R21 to R38). -/

namespace Sys2Proof.Machine

/-- Settles O27: a STATUS write keeps each W1C flag under the complement of its bit. -/
theorem statusWriteClearsFlags : Obligations.StatusWriteClearsFlags := by
  unfold Obligations.StatusWriteClearsFlags
  intro s v rest h
  rw [step_of_reg_write (r := .status) h]
  simp only [State.writeReg, State.clearStatus, State.respond, and_not_eq_ite]

/-- CTRL reads back IE in bit 0, and 0 elsewhere (R31). -/
theorem State.readReg_ctrl (s : State) : s.readReg .ctrl = if s.ie then 1 else 0 := by
  simp only [State.readReg, State.ctrlWord]
  cases s.ie <;> rfl

theorem State.irq_iff (s : State) : s.irq = true ↔ s.ie = true ∧ s.done = true := by
  simp only [State.irq, Bool.and_eq_true]

/-- Settles O28: bit 1 of the written value decides between the soft reset and the store of IE. -/
theorem ctrlWriteStoresIe : Obligations.CtrlWriteStoresIe := by
  unfold Obligations.CtrlWriteStoresIe
  intro s v rest h
  have hw : WritesReg s.nextMove .ctrl v := nextMove_of_agenda h
  refine ⟨fun hv => ?_, fun hv => ?_, fun t _ => ⟨t.readReg_ctrl, t.irq_iff⟩⟩
  · rw [step_of_reg_write (r := .ctrl) h, writeReg_ctrl_of_not_srst _ hv]
    rfl
  · have hr : Resets s.nextMove := .inr (.inr ⟨v, hw, hv⟩)
    have ht := step_of_reg_write (r := .ctrl) h
    have hc := cleared_of_resets hr ht
    exact ⟨hr, _, ht, hc.ie, hc.busy, fun r => hc.readReg⟩

/-- An access at a register block offset that holds no register reads 0 or is ignored (R38). -/
theorem accessReg_reserved (s : State) {o : Nat} (h : Reg.atOffset o = none) :
    s.accessReg o .read = (s, .data 0) ∧ ∀ v, s.accessReg o (.write v) = (s, .okay) := by
  simp only [State.accessReg, State.readRegBlock, State.writeRegBlock, h, implies_true, and_self]

/-- Settles O30: no register stands at these offsets. -/
theorem reservedOffsetsDoNothing : Obligations.ReservedOffsetsDoNothing := by
  unfold Obligations.ReservedOffsetsDoNothing
  intro s o op rest h hlo hhi ha
  have hr : ReachesReg ⟨o, .word, op⟩ := ⟨by simp only; omega, rfl, ha⟩
  obtain ⟨hread, hwrite⟩ := accessReg_reserved { s with agenda := rest } (Reg.atOffset_none hlo)
  rw [step_of_agenda h, State.hostAccess, accessAt_reg _ hr]
  cases op with
  | read => rw [hread]; rfl
  | write v => rw [hwrite]; rfl

theorem flagBit_getLsbD (b : Bool) (n : Nat) {i : Nat} (hi : i < 32) :
    (flagBit b n).getLsbD i = (decide (i = n) && b) := by
  simp only [flagBit, BitVec.getLsbD_shiftLeft, BitVec.getLsbD_setWidth, BitVec.getLsbD_ofBool]
  by_cases h : i = n
  · subst h; simp [hi]
  · rcases Nat.lt_or_gt_of_ne h with hl | hl
    · simp [h, hl]
    · have : i - n ≠ 0 := by omega
      simp [h, this]

/-- The bits of STATUS (R24 to R29). -/
theorem State.statusWord_getLsbD (s : State) {i : Nat} (hi : i < 32) :
    s.statusWord.getLsbD i = (decide (i = 0) && s.busy || decide (i = 1) && s.done || decide (i = 2) && s.err ||
      decide (i = 3) && s.drop || decide (i = 4) && s.lockv || !decide (i < 8) && s.errcode.getLsbD (i - 8)) := by
  have hs : i - 8 < 32 := by omega
  simp only [State.statusWord, BitVec.getLsbD_or, flagBit_getLsbD _ _ hi, BitVec.getLsbD_shiftLeft,
    BitVec.getLsbD_setWidth, hi, hs, decide_true, Bool.true_and]

/-- From bit 8 on, STATUS holds ERRCODE (R29). -/
theorem State.statusWord_getLsbD_of_ge (s : State) {i : Nat} (h : 8 ≤ i) (hi : i < 32) :
    s.statusWord.getLsbD i = s.errcode.getLsbD (i - 8) := by
  have : i ≠ 0 ∧ i ≠ 1 ∧ i ≠ 2 ∧ i ≠ 3 ∧ i ≠ 4 ∧ ¬ i < 8 := by omega
  rw [s.statusWord_getLsbD hi]
  simp [this]

/-- Settles O34: the flags and ERRCODE at their bits, and no bit of STATUS outside them. -/
theorem statusLayout : Obligations.StatusLayout := by
  unfold Obligations.StatusLayout
  intro s
  have hreserved : s.statusWord.extractLsb' 5 3 = 0 := by
    apply BitVec.eq_of_getLsbD_eq
    intro i hi
    have : 5 + i ≠ 0 ∧ 5 + i ≠ 1 ∧ 5 + i ≠ 2 ∧ 5 + i ≠ 3 ∧ 5 + i ≠ 4 ∧ 5 + i < 8 := by omega
    rw [BitVec.getLsbD_extractLsb', s.statusWord_getLsbD (by omega)]
    simp [this]
  have herrcode : s.statusWord.extractLsb' 8 8 = s.errcode := by
    apply BitVec.eq_of_getLsbD_eq
    intro i hi
    rw [BitVec.getLsbD_extractLsb', s.statusWord_getLsbD_of_ge (by omega) (by omega), Nat.add_sub_cancel_left,
      decide_eq_true hi, Bool.true_and]
  have hupper : s.statusWord.extractLsb' 16 16 = 0 := by
    apply BitVec.eq_of_getLsbD_eq
    intro i hi
    rw [BitVec.getLsbD_extractLsb', s.statusWord_getLsbD_of_ge (by omega) (by omega),
      BitVec.getLsbD_of_ge _ _ (by omega), Bool.and_false]
    exact BitVec.getLsbD_zero.symm
  refine ⟨?_, ?_, ?_, ?_, ?_, hreserved, herrcode, hupper⟩ <;>
    (rw [State.readReg, s.statusWord_getLsbD (by decide)]; simp)

/-- The registers a write stores into or ignores with no other effect (R33 to R37). -/
def plainRegs : List Reg := [.src, .dst, .len, .key, .klen, .opa, .opb, .id, .result, .outlen]

/-- Settles O35: the rows of both tables are the registers' offsets with what each reads and stores. -/
theorem registerAccess : Obligations.RegisterAccess := by
  unfold Obligations.RegisterAccess
  intro s rest
  constructor
  · rw [← State.readReg_ctrl]
    change ∀ row ∈ Reg.all.map fun r => (BitVec.ofNat 17 r.offset, s.readReg r), _
    intro row hrow h
    obtain ⟨r, -, rfl⟩ := List.mem_map.mp hrow
    exact step_of_reg_read h
  · intro v
    change ∀ row ∈ plainRegs.map fun r => (BitVec.ofNat 17 r.offset, s.writeReg r v), _
    intro row hrow h
    obtain ⟨r, hr, rfl⟩ := List.mem_map.mp hrow
    rw [step_of_reg_write h]
    simp only [plainRegs, List.mem_cons, List.not_mem_nil, or_false] at hr
    rcases hr with rfl | rfl | rfl | rfl | rfl | rfl | rfl | rfl | rfl | rfl <;> rfl

end Sys2Proof.Machine
end

section
/-! SUPPORT. What a step does to MEM: which bytes a write, a completion and a reset can change, and what the host's window
reads and stores (spec/20_memory.md R61 to R68, spec/70_reset_and_hazards.md R242 to R244). -/

namespace Sys2Proof.Machine

/-! ### Where a MEM byte can change -/

/-- Where a state's MEM is another's with a sequence written, an address that reads otherwise lies under the sequence. -/
theorem State.byteAt_writeBytes_ne {s t : State} {a : Nat} {bs : List Byte} {x : Nat}
    (h : t.byteAt x ≠ s.byteAt x) (hm : t.mem = Memory.writeBytes s.mem a bs) (hp : t.powerOns = s.powerOns) :
    a ≤ x ∧ x < a + bs.length := by
  by_contra hx
  exact h (State.byteAt_writeBytes_outside hm hp (by omega))

/-- A successful completion changes bytes of the command's output region alone (R61, R68). -/
theorem completeOk_byteAt_ne (T : Tables) {i : Instr} {s : State} {x : Nat} (hc : checkInstr i s = none)
    (h : (s.completeOk (effectOf T i s)).byteAt x ≠ s.byteAt x) : (outputRegion i s.snapshot).Has x := by
  obtain ⟨hlo, hhi⟩ := State.byteAt_writeBytes_ne h (State.completeOk_mem s _) rfl
  obtain ⟨hempty | hbase, hlen⟩ := effect_fits T hc
  · rw [hempty, List.length_nil] at hhi
    omega
  · rw [← (requirements_regions i s.snapshot).2]
    exact ⟨by omega, by omega⟩

/-- A reset changes bytes of the output region of the command it aborts alone (R242, R243). -/
theorem resetAction_byteAt_ne {s : State} {x : Nat} (h : s.resetAction.byteAt x ≠ s.byteAt x) :
    s.busy = true ∧ ∃ i, decode s.snapshot.cmd = .ok i ∧ (outputRegion i s.snapshot).Has x := by
  rcases resetAction_cases s with ⟨-, hr⟩ | ⟨i, hb, hi, -, -, hr⟩
  · rw [hr] at h
    exact absurd rfl h
  · rw [hr] at h
    have hx := State.byteAt_writeBytes_ne h rfl rfl
    rw [abortBytes_length, (requirements_regions i s.snapshot).2] at hx
    exact ⟨hb, i, hi, hx⟩

/-- Of the register writes only the soft reset changes a MEM byte. -/
theorem writeReg_byteAt_ne {s : State} {r : Reg} {v : Word} {x : Nat} (h : (s.writeReg r v).byteAt x ≠ s.byteAt x) :
    r = .ctrl ∧ v.getLsbD 1 = true ∧ s.resetAction.byteAt x ≠ s.byteAt x := by
  cases r with
  | cmd =>
    rcases s.busy.eq_false_or_eq_true with hb | hb
    · rw [writeReg_cmd_of_busy v hb] at h
      exact absurd rfl h
    · rw [writeReg_cmd_of_idle v hb] at h
      exact absurd rfl h
  | ctrl =>
    rcases (v.getLsbD 1).eq_false_or_eq_true with hv | hv
    · rw [writeReg_ctrl_of_srst _ hv] at h
      exact ⟨rfl, hv, h⟩
    · rw [writeReg_ctrl_of_not_srst _ hv] at h
      exact absurd rfl h
  | _ => exact absurd rfl h

/-- Settles O38: of the effects a step can have, only a success, a window write, a reset and power-on touch MEM, and each of
the first three stays inside its region. -/
theorem memChangesOnlyByTheRules : Obligations.MemChangesOnlyByTheRules := by
  unfold Obligations.MemChangesOnlyByTheRules
  intro s t x h hne
  have he := step_effect h
  generalize hm : s.nextMove = m at he ⊢
  cases he with
  | access a u hu r =>
    cases hu with
    | none => exact absurd rfl hne
    | locked => exact absurd rfl hne
    | regWrite r v ha =>
      obtain ⟨rfl, hv, hreset⟩ := writeReg_byteAt_ne (s := s.dequeued) hne
      have hsoft : Resets (.access a) := .inr (.inr ⟨v, congrArg Move.access ha, hv⟩)
      exact .inr (.inr (.inl ⟨hsoft, resetAction_byteAt_ne (s := s.dequeued) hreset⟩))
    | memWrite v hr hb hop =>
      obtain ⟨hlo, hhi⟩ := State.byteAt_writeBytes_ne hne rfl rfl
      rw [bytesOf_length] at hhi
      exact .inr (.inl ⟨a, v, rfl, hr, hop, hb, hlo, hhi⟩)
  | idle => exact absurd rfl hne
  | failed => exact absurd rfl hne
  | succeeded hb i hi hc => exact .inl ⟨rfl, hb, rfl, i, hi, completeOk_byteAt_ne Config.tables hc hne⟩
  | hardReset => exact .inr (.inr (.inl ⟨.inl rfl, resetAction_byteAt_ne (s := s.dequeued) hne⟩))
  | powerOn => exact .inr (.inr (.inr rfl))

/-! ### The MEM window -/

/-- A byte in front of a little-endian value is its lowest digit to the base 256 (R64). -/
theorem littleEndian_cons (b : Byte) (bs : List Byte) :
    littleEndian (b :: bs) = BitVec.ofNat 32 (b.toNat + (littleEndian bs).toNat * 256) := by
  have hdisjoint : b.setWidth 32 &&& littleEndian bs <<< 8 = 0#32 := by
    apply BitVec.eq_of_getLsbD_eq
    intro i hi
    rw [BitVec.getLsbD_and, BitVec.getLsbD_setWidth, BitVec.getLsbD_shiftLeft, BitVec.getLsbD_zero]
    rcases Nat.lt_or_ge i 8 with h | h
    · simp [h]
    · simp [BitVec.getLsbD_of_ge b i h]
  apply BitVec.eq_of_toNat_eq
  rw [littleEndian, ← BitVec.add_eq_or_of_and_eq_zero _ _ hdisjoint, BitVec.toNat_add, BitVec.toNat_shiftLeft,
    BitVec.toNat_setWidth, BitVec.toNat_ofNat, Nat.shiftLeft_eq]
  omega

/-- The little-endian value of `n` bytes is R64's sum. -/
theorem littleEndian_map_range (n : Nat) (f : Nat → Byte) :
    littleEndian ((List.range n).map f) = BitVec.ofNat 32 (∑ i ∈ Finset.range n, (f i).toNat * 256 ^ i) := by
  induction n generalizing f with
  | zero => rfl
  | succ n ih =>
    have hshift : ∑ i ∈ Finset.range (n + 1), (f i).toNat * 256 ^ i =
        (f 0).toNat + (∑ i ∈ Finset.range n, (f (i + 1)).toNat * 256 ^ i) * 256 := by
      rw [Finset.sum_range_succ', Finset.sum_mul]
      simp only [pow_succ, pow_zero, mul_one, mul_assoc, add_comm]
    rw [List.range_succ_eq_map, List.map_cons, List.map_map, littleEndian_cons, ih, hshift]
    apply BitVec.eq_of_toNat_eq
    simp only [BitVec.toNat_ofNat, Function.comp_apply, Nat.succ_eq_add_one]
    omega

theorem bytesOf_getD (v : Word) {n i : Nat} (h : i < n) : (bytesOf v n).getD i 0 = v.extractLsb' (8 * i) 8 := by
  simp [bytesOf, h]

/-- What a window access does while BUSY = 0: a read changes nothing, a write stores its bytes (R64). -/
theorem accessMem_of_idle {s : State} (o : Nat) (z : AccessSize) (h : s.busy = false) :
    s.accessMem o z .read = (s, .data (littleEndian (s.readBytes o z.bytes))) ∧
      ∀ v, s.accessMem o z (.write v) = ({ s with mem := Memory.writeBytes s.mem o (bytesOf v z.bytes) }, .okay) := by
  simp only [State.accessMem, h, Bool.false_eq_true, if_false, implies_true, and_self]

/-- Settles O33: an aligned access reaches MEM; the value read is R64's sum, and the bytes written read back. -/
theorem windowIsLittleEndian : Obligations.WindowIsLittleEndian := by
  unfold Obligations.WindowIsLittleEndian
  intro s a rest h hb hwindow haligned
  have hmem : ReachesMem a := BusAccess.inside hwindow haligned
  obtain ⟨hread, hwrite⟩ := accessMem_of_idle (s := { s with agenda := rest }) (a.offset.toNat - 0x10000) a.size hb
  refine ⟨fun hop => ?_, fun v hop => ⟨_, step_of_agenda h, ?_⟩⟩
  · rw [step_of_agenda h, State.hostAccess, accessAt_mem _ hmem, hop, hread, State.readBytes, littleEndian_map_range]
    rfl
  · rw [State.hostAccess, accessAt_mem _ hmem, hop, hwrite]
    refine ⟨fun i hi => ?_, fun x hx => ?_, rfl⟩
    · rw [State.byteAt_writeBytes_inside (s := s) rfl (by rwa [bytesOf_length]), bytesOf_getD v hi]
    · exact State.byteAt_writeBytes_outside (s := s) rfl rfl (by rwa [bytesOf_length])

end Sys2Proof.Machine
end

section
/-! SUPPORT. The command word as its fields at their places (spec/30_encoding.md R81 to R88): what each field of a
word reads, which word has given fields, and that the decoder and the encoder undo each other. -/

namespace Sys2Proof

/-! ### A field at its place (R81) -/

theorem place_getLsbD {n : Nat} (v : BitVec n) (lsb : Nat) {i : Nat} (hi : i < 32) :
    (place v lsb).getLsbD i = (decide (lsb ≤ i) && v.getLsbD (i - lsb)) := by
  have hj : i - lsb < 32 := by omega
  simp only [place, BitVec.getLsbD_shiftLeft, BitVec.getLsbD_setWidth, hi, hj, decide_true, Bool.true_and,
    ← decide_not, Nat.not_lt]

@[simp] theorem place_zero (n lsb : Nat) : place 0#n lsb = 0#32 := by simp [place]

theorem place_at_zero {n : Nat} (v : BitVec n) : place v 0 = v.setWidth 32 := BitVec.shiftLeft_zero _

/-- A field reads what is placed in it. -/
theorem extractLsb'_place {n : Nat} (v : BitVec n) {lsb : Nat} (h : lsb + n ≤ 32) :
    (place v lsb).extractLsb' lsb n = v := by
  apply BitVec.eq_of_getLsbD_eq
  intro i hi
  rw [BitVec.getLsbD_extractLsb', place_getLsbD _ _ (by omega)]
  simp [hi]

/-- A field reads 0 where another field is placed. -/
theorem extractLsb'_place_other {n k : Nat} (v : BitVec n) {lsb start : Nat} (hk : start + k ≤ 32)
    (h : start + k ≤ lsb ∨ lsb + n ≤ start) : (place v lsb).extractLsb' start k = 0 := by
  apply BitVec.eq_of_getLsbD_eq
  intro i hi
  rw [BitVec.getLsbD_extractLsb', place_getLsbD _ _ (by omega)]
  rcases h with h | h
  · simp [show ¬ lsb ≤ start + i by omega]
  · simp [BitVec.getLsbD_of_ge v (start + i - lsb) (by omega)]

/-- A field of a word, put back at its place, is the word under the field's mask. -/
theorem place_extractLsb' (c : Word) (lsb n : Nat) :
    place (c.extractLsb' lsb n) lsb = c &&& place (BitVec.allOnes n) lsb := by
  apply BitVec.eq_of_getLsbD_eq
  intro i hi
  rw [BitVec.getLsbD_and, place_getLsbD _ _ hi, place_getLsbD _ _ hi, BitVec.getLsbD_extractLsb',
    BitVec.getLsbD_allOnes]
  by_cases h : lsb ≤ i
  · simp [h, Bool.and_comm]
  · simp [h]

/-- A field that a mask covers is 0 in a word with no bit under the mask. -/
theorem extractLsb'_eq_zero_of_mask {c m : Word} {lsb n : Nat} (hz : c &&& m = 0)
    (hm : m.extractLsb' lsb n = BitVec.allOnes n) : c.extractLsb' lsb n = 0 :=
  calc c.extractLsb' lsb n = c.extractLsb' lsb n &&& m.extractLsb' lsb n := by rw [hm, BitVec.and_allOnes]
    _ = (c &&& m).extractLsb' lsb n := BitVec.extractLsb'_and.symm
    _ = 0 := by rw [hz]; exact BitVec.extractLsb'_zero

/-! ### The fields of a word beside its opcode -/

/-- The fields of a command word beside OPC; a field that a command does not use is 0 (R81, R87). -/
@[ext] structure Fields where
  imm8 : Byte := 0
  tsel : BitVec 2 := 0
  dir : BitVec 1 := 0
  ord : BitVec 1 := 0

/-- The word with these fields, and 0 in its reserved bits (R81). -/
def Fields.word (f : Fields) (opc : Byte) : Word :=
  place f.imm8 16 ||| place f.tsel 10 ||| place f.dir 9 ||| place f.ord 8 ||| place opc 0

/-- The fields of a word (R81). -/
def fieldsOf (c : Word) : Fields := ⟨fieldImm8 c, fieldTsel c, fieldDir c, fieldOrd c⟩

/-- The fields of a command (R82 to R85). -/
def Instr.fields : Instr → Fields
  | .gfmul m => { imm8 := m }
  | .subst t => { tsel := t.code }
  | .rotrow k d => { imm8 := k, dir := d.code }
  | .shrows o d => { dir := d.code, ord := o.code }
  | .mixcol o t m => { imm8 := m, tsel := t.code, ord := o.code }
  | _ => {}

theorem fieldsOf_word (f : Fields) (opc : Byte) : fieldsOf (f.word opc) = f := by
  ext1 <;> simp [fieldsOf, Fields.word, fieldImm8, fieldTsel, fieldDir, fieldOrd, BitVec.extractLsb'_or,
    extractLsb'_place, extractLsb'_place_other]

/-- A word with no reserved bit set is the word of its fields (R81). -/
theorem word_fieldsOf {c : Word} (h : c &&& 0xFF00F000 = 0) : (fieldsOf c).word (fieldOpc c) = c :=
  calc (fieldsOf c).word (fieldOpc c) = c &&& 0x00FF0FFF := by
        simp only [Fields.word, fieldsOf, fieldImm8, fieldTsel, fieldDir, fieldOrd, fieldOpc, place_extractLsb',
          ← BitVec.and_or_distrib_left]
        rfl
    _ = (c &&& 0xFF00F000) ||| (c &&& 0x00FF0FFF) := by rw [h]; exact BitVec.zero_or.symm
    _ = c &&& BitVec.allOnes 32 := BitVec.and_or_distrib_left.symm
    _ = c := BitVec.and_allOnes

/-- The encoding column of R90 is the opcode with the command's fields. -/
theorem encode_eq_word (i : Instr) : encode i = i.fields.word i.opcode.byte := by
  cases i with
  | gfmul | subst | rotrow | shrows | mixcol =>
    simp [encode, Fields.word, Instr.fields, Instr.opcode, Opcode.byte, place_at_zero]
  | _ => rfl

theorem fieldsOf_encode (i : Instr) : fieldsOf (encode i) = i.fields := by
  rw [encode_eq_word, fieldsOf_word]

/-- The reserved bits [31:24] and [15:12] are must-be-zero bits of every opcode (R87). -/
theorem Opcode.mbz_reserved (op : Opcode) : op.mbz &&& 0xFF00F000 = 0xFF00F000 := by cases op <;> rfl

theorem reserved_eq_zero {c : Word} {op : Opcode} (hz : c &&& op.mbz = 0) : c &&& 0xFF00F000 = 0 := by
  rw [← op.mbz_reserved, ← BitVec.and_assoc, hz]
  exact BitVec.zero_and

/-! ### The codes of the fields (R82 to R84) -/

@[simp] theorem Order.ofCode_code (o : Order) : Order.ofCode o.code = o := by cases o <;> rfl
@[simp] theorem Dir.ofCode_code (d : Dir) : Dir.ofCode d.code = d := by cases d <;> rfl
@[simp] theorem SubstTable.ofCode_code (t : SubstTable) : SubstTable.ofCode t.code = some t := by cases t <;> rfl
@[simp] theorem MixTable.ofCode_code (t : MixTable) : MixTable.ofCode t.code = some t := by cases t <;> rfl

theorem Order.code_ofCode (b : BitVec 1) : (Order.ofCode b).code = b := by decide +revert
theorem Dir.code_ofCode (b : BitVec 1) : (Dir.ofCode b).code = b := by decide +revert

theorem SubstTable.code_of_ofCode {b : BitVec 2} {t : SubstTable} (h : SubstTable.ofCode b = some t) : t.code = b := by
  revert b
  cases t <;> decide

theorem MixTable.code_of_ofCode {b : BitVec 2} {t : MixTable} (h : MixTable.ofCode b = some t) : t.code = b := by
  revert b
  cases t <;> decide

/-! ### Decode and encode -/

theorem Instr.wellFormed_mixcol {o : Order} {t : MixTable} {m : Byte} :
    (Instr.mixcol o t m).wellFormed = true ↔ t.order = o := beq_iff_eq

/-- A well-formed command is decoded from any word that has its fields (R82 to R85). -/
theorem decodeFields_of_fields {c : Word} {i : Instr} (hw : i.wellFormed = true) (hf : fieldsOf c = i.fields) :
    decodeFields i.opcode c = .ok i := by
  obtain ⟨himm, htsel, hdir, hord⟩ := Fields.ext_iff.mp hf
  simp only [fieldsOf] at himm htsel hdir hord
  cases i with
  | gfmul m => simp only [Instr.opcode, decodeFields, himm, Instr.fields]
  | subst t => simp only [Instr.opcode, decodeFields, htsel, Instr.fields, SubstTable.ofCode_code]
  | rotrow k d => simp only [Instr.opcode, decodeFields, himm, hdir, Instr.fields, Dir.ofCode_code]
  | shrows o d => simp only [Instr.opcode, decodeFields, hord, hdir, Instr.fields, Order.ofCode_code, Dir.ofCode_code]
  | mixcol o t m =>
    simp only [Instr.opcode, decodeFields, himm, htsel, hord, Instr.fields, Order.ofCode_code, MixTable.ofCode_code,
      Instr.wellFormed_mixcol.mp hw, if_true]
  | _ => rfl

/-- A MIXCOL is decoded when its TSEL names a matrix of the order in ORD (R84, R88). -/
theorem decodeFields_mixcol_ok {c : Word} {i : Instr} (h : decodeFields .mixcol c = .ok i) :
    ∃ t, MixTable.ofCode (fieldTsel c) = some t ∧ t.order = Order.ofCode (fieldOrd c) ∧
      i = .mixcol (Order.ofCode (fieldOrd c)) t (fieldImm8 c) := by
  simp only [decodeFields] at h
  cases ht : MixTable.ofCode (fieldTsel c) with
  | none => simp [ht] at h
  | some t =>
    by_cases ho : t.order = Order.ofCode (fieldOrd c)
    · simp only [ht, ho, if_true] at h
      cases h
      exact ⟨t, rfl, ho, rfl⟩
    · simp [ht, ho] at h

/-- A decoded command is well formed, and has the opcode and the fields of the word. -/
theorem fields_of_decodeFields {op : Opcode} {c : Word} {i : Instr} (hz : c &&& op.mbz = 0)
    (h : decodeFields op c = .ok i) : i.opcode = op ∧ i.wellFormed = true ∧ fieldsOf c = i.fields := by
  have unused {lsb n : Nat} (hm : op.mbz.extractLsb' lsb n = BitVec.allOnes n) : c.extractLsb' lsb n = 0 :=
    extractLsb'_eq_zero_of_mask hz hm
  cases op with
  | gfmul =>
    cases h
    exact ⟨rfl, rfl, Fields.ext rfl (unused rfl) (unused rfl) (unused rfl)⟩
  | subst =>
    simp only [decodeFields] at h
    cases ht : SubstTable.ofCode (fieldTsel c) with
    | none => simp [ht] at h
    | some t =>
      rw [ht] at h
      cases h
      exact ⟨rfl, rfl, Fields.ext (unused rfl) (SubstTable.code_of_ofCode ht).symm (unused rfl) (unused rfl)⟩
  | rotrow =>
    cases h
    exact ⟨rfl, rfl, Fields.ext rfl (unused rfl) (Dir.code_ofCode _).symm (unused rfl)⟩
  | shrows =>
    cases h
    exact ⟨rfl, rfl, Fields.ext (unused rfl) (unused rfl) (Dir.code_ofCode _).symm (Order.code_ofCode _).symm⟩
  | mixcol =>
    obtain ⟨t, ht, ho, rfl⟩ := decodeFields_mixcol_ok h
    exact ⟨rfl, Instr.wellFormed_mixcol.mpr ho,
      Fields.ext rfl (MixTable.code_of_ofCode ht).symm (unused rfl) (Order.code_ofCode _).symm⟩
  | _ =>
    cases h
    exact ⟨rfl, rfl, Fields.ext (unused rfl) (unused rfl) (unused rfl) (unused rfl)⟩

/-- The encoded word holds its opcode in OPC and no must-be-zero bit, command by command (R86, R87). -/
theorem encode_header (i : Instr) : fieldOpc (encode i) = i.opcode.byte ∧ encode i &&& i.opcode.mbz = 0 := by
  cases i with
  | nop => exact Laws.EncodeHeader.nop
  | gfmul m => exact Laws.EncodeHeader.gfmul m
  | subst t => exact Laws.EncodeHeader.subst t
  | rotrow k d => exact Laws.EncodeHeader.rotrow k d
  | shrows o d => exact Laws.EncodeHeader.shrows o d
  | mixcol o t m => exact Laws.EncodeHeader.mixcol o t m
  | addb => exact Laws.EncodeHeader.addb
  | addbt => exact Laws.EncodeHeader.addbt
  | xkeyc => exact Laws.EncodeHeader.xkeyc
  | xkeyh => exact Laws.EncodeHeader.xkeyh
  | xaeencr => exact Laws.EncodeHeader.xaeencr
  | xaedecr => exact Laws.EncodeHeader.xaedecr
  | xaeenc => exact Laws.EncodeHeader.xaeenc
  | xaedec => exact Laws.EncodeHeader.xaedec
  | xwhrnd => exact Laws.EncodeHeader.xwhrnd
  | xwhcmp => exact Laws.EncodeHeader.xwhcmp
  | xwhhash => exact Laws.EncodeHeader.xwhhash

theorem decode_encode {i : Instr} (hw : i.wellFormed = true) : decode (encode i) = .ok i := by
  obtain ⟨hopc, hmbz⟩ := encode_header i
  rw [decode_of_fields hopc hmbz]
  exact decodeFields_of_fields hw (fieldsOf_encode i)

theorem encode_decode {c : Word} {i : Instr} (h : decode c = .ok i) : encode i = c ∧ i.wellFormed = true := by
  obtain ⟨op, hopc, hmbz, hdec⟩ := decode_ok h
  obtain ⟨rfl, hw, hf⟩ := fields_of_decodeFields hmbz hdec
  refine ⟨?_, hw⟩
  calc encode i = i.fields.word i.opcode.byte := encode_eq_word i
    _ = (fieldsOf c).word (fieldOpc c) := by rw [hf, hopc]
    _ = c := word_fieldsOf (reserved_eq_zero hmbz)

/-- A word is decoded to a command exactly when the command is well formed and the word is its own (R88, R90). -/
theorem decode_eq_ok_iff {c : Word} {i : Instr} : decode c = .ok i ↔ encode i = c ∧ i.wellFormed = true :=
  ⟨encode_decode, fun ⟨hc, hw⟩ => hc ▸ decode_encode hw⟩

/-- Settles O1: an encoded word has its command's opcode, no must-be-zero bit, and the command's fields. -/
theorem decodeOfEncode : Obligations.DecodeOfEncode := by
  unfold Obligations.DecodeOfEncode
  exact fun _ => decode_encode

/-- Settles O2: a decoded word has its command's opcode and fields and no reserved bit, which make up its word. -/
theorem encodeOfDecode : Obligations.EncodeOfDecode := by
  unfold Obligations.EncodeOfDecode
  exact fun _ _ => encode_decode

/-- Settles O4: each word is the encoding of its well-formed command. -/
theorem exampleWordsDecode : Obligations.ExampleWordsDecode := by
  unfold Obligations.ExampleWordsDecode
  simp only [decode_eq_ok_iff]
  decide

end Sys2Proof
end

section
/-! SUPPORT. The words that are no command, by R88's three checks, and their completion
(spec/30_encoding.md R86 to R88, spec/60_exceptions.md R211, R214). -/

namespace Sys2Proof

/-! ### The three checks (R88) -/

/-- The OPC values with no row in R86. -/
def Unallocated (opc : Byte) : Prop :=
  (8 ≤ opc.toNat ∧ opc.toNat ≤ 0x0F) ∨ (0x12 ≤ opc.toNat ∧ opc.toNat ≤ 0x1F) ∨
    (0x24 ≤ opc.toNat ∧ opc.toNat ≤ 0x2F) ∨ 0x33 ≤ opc.toNat

/-- `MBZ(opc)` by OPC value (R87). -/
def mbzOf (opc : Byte) : Word :=
  if opc = 1 then 0xFF00FF00 else if opc = 2 then 0xFFFFF300 else if opc = 3 then 0xFF00FD00
  else if opc = 4 then 0xFFFFFC00 else if opc = 5 then 0xFF00F200 else 0xFFFFFF00

/-- A MIXCOL's TSEL that names no matrix of the order in ORD (R84, check 3 of R88). -/
def BadMixSelect (tsel : BitVec 2) (ord : BitVec 1) : Prop :=
  tsel = 3 ∨ ((tsel = 0 ∨ tsel = 1) ∧ ord = 1) ∨ (tsel = 2 ∧ ord = 0)

/-- Check 3 of R88 fails. -/
def BadSelect (c : Word) : Prop :=
  (fieldOpc c = 2 ∧ fieldTsel c = 3) ∨ (fieldOpc c = 5 ∧ BadMixSelect (fieldTsel c) (fieldOrd c))

theorem Opcode.ofByte_eq_none_iff (b : Byte) : Opcode.ofByte b = none ↔ Unallocated b := by
  unfold Unallocated
  revert b
  decide

theorem mbzOf_byte (op : Opcode) : mbzOf op.byte = op.mbz := by cases op <;> rfl

theorem SubstTable.ofCode_eq_none_iff (b : BitVec 2) : SubstTable.ofCode b = none ↔ b = 3 := by decide +revert

theorem MixTable.ofCode_eq_none_iff (b : BitVec 2) : MixTable.ofCode b = none ↔ b = 3 := by decide +revert

theorem MixTable.badMixSelect_code (t : MixTable) (ord : BitVec 1) :
    BadMixSelect t.code ord ↔ t.order ≠ Order.ofCode ord := by
  unfold BadMixSelect
  revert ord
  cases t <;> decide

/-- The fields of a word with an allocated opcode fail in one way, by check 3 of R88. -/
theorem decodeFields_eq_error_iff {op : Opcode} {c : Word} {d : DecodeError} (ho : fieldOpc c = op.byte) :
    decodeFields op c = .error d ↔ d = .badSelect ∧ BadSelect c := by
  unfold BadSelect
  rw [ho]
  cases op with
  | subst =>
    simp only [decodeFields, Opcode.byte, ← SubstTable.ofCode_eq_none_iff]
    cases SubstTable.ofCode (fieldTsel c) <;> simp [eq_comm]
  | mixcol =>
    simp only [decodeFields, Opcode.byte]
    cases ht : MixTable.ofCode (fieldTsel c) with
    | none => simp [(MixTable.ofCode_eq_none_iff _).mp ht, BadMixSelect, eq_comm]
    | some t =>
      rw [← MixTable.code_of_ofCode ht, t.badMixSelect_code]
      by_cases h : t.order = Order.ofCode (fieldOrd c) <;> simp [h, eq_comm]
  | _ => simp [decodeFields, Opcode.byte]

/-- Decode in R88's order: no opcode, or a must-be-zero bit, or what the fields say. -/
theorem decode_cases (c : Word) :
    (Unallocated (fieldOpc c) ∧ decode c = .error .illegalOpcode) ∨
      (¬ Unallocated (fieldOpc c) ∧ c &&& mbzOf (fieldOpc c) ≠ 0 ∧ decode c = .error .reservedField) ∨
      ∃ op, ¬ Unallocated (fieldOpc c) ∧ c &&& mbzOf (fieldOpc c) = 0 ∧ fieldOpc c = op.byte ∧
        decode c = decodeFields op c := by
  rw [← Opcode.ofByte_eq_none_iff]
  cases hop : Opcode.ofByte (fieldOpc c) with
  | none => exact .inl ⟨rfl, by simp only [decode, hop]⟩
  | some op =>
    have ho : fieldOpc c = op.byte := (Opcode.byte_of_ofByte hop).symm
    rw [ho, mbzOf_byte]
    by_cases hz : c &&& op.mbz = 0
    · exact .inr (.inr ⟨op, Option.some_ne_none op, hz, rfl, decode_of_fields ho hz⟩)
    · exact .inr (.inl ⟨Option.some_ne_none op, hz, by simp only [decode, hop, hz, if_false]⟩)

theorem decode_illegalOpcode_iff (c : Word) : decode c = .error .illegalOpcode ↔ Unallocated (fieldOpc c) := by
  rcases decode_cases c with ⟨hu, hd⟩ | ⟨hu, -, hd⟩ | ⟨op, hu, -, ho, hd⟩
  · simp [hu, hd]
  · simp [hu, hd]
  · simp [hu, hd, decodeFields_eq_error_iff ho]

theorem decode_reservedField_iff (c : Word) :
    decode c = .error .reservedField ↔ ¬ Unallocated (fieldOpc c) ∧ c &&& mbzOf (fieldOpc c) ≠ 0 := by
  rcases decode_cases c with ⟨hu, hd⟩ | ⟨hu, hz, hd⟩ | ⟨op, hu, hz, ho, hd⟩
  · simp [hu, hd]
  · exact iff_of_true hd ⟨hu, hz⟩
  · simp [hz, hd, decodeFields_eq_error_iff ho]

theorem decode_badSelect_iff (c : Word) :
    decode c = .error .badSelect ↔ ¬ Unallocated (fieldOpc c) ∧ c &&& mbzOf (fieldOpc c) = 0 ∧ BadSelect c := by
  rcases decode_cases c with ⟨hu, hd⟩ | ⟨hu, hz, hd⟩ | ⟨op, hu, hz, ho, hd⟩
  · simp [hu, hd]
  · exact iff_of_false (by simp [hd]) fun h => hz h.2.1
  · simp [hu, hz, hd, decodeFields_eq_error_iff ho]

theorem decode_nop_iff (c : Word) : decode c = .ok .nop ↔ c = 0 := by
  rw [decode_eq_ok_iff]
  exact ⟨fun h => h.1.symm, fun h => ⟨h.symm, rfl⟩⟩

end Sys2Proof

namespace Sys2Proof.Machine

/-- The completion step of a word that does not decode is the completion with its error (R88, R95). -/
theorem completion_of_decode_error {s : State} {d : DecodeError} (h : decode s.snapshot.cmd = .error d) :
    completion s = .next (s.completeError (errorOfDecode d).code) := by
  simp only [completion, h]

theorem completeError_failsWith (s : State) (e : ErrorCode) : FailsWith s (s.completeError e.code) e :=
  ⟨rfl, rfl, rfl, rfl, rfl, rfl, rfl, completeError_sameBeside s e.code⟩

/-- Settles O3: each check by its lemma, and the completion of a word that does not decode. -/
theorem decodeChecksInOrder : Obligations.DecodeChecksInOrder := by
  unfold Obligations.DecodeChecksInOrder
  intro c
  refine ⟨decode_illegalOpcode_iff c, decode_reservedField_iff c, decode_badSelect_iff c, decode_nop_iff c, ?_⟩
  rintro s d rfl hd
  refine ⟨_, completion_of_decode_error hd, completeError_failsWith s _, ?_⟩
  cases d <;> rfl

end Sys2Proof.Machine
end

section
/-! SUPPORT. The assembler: the operands of each command, and the words of R90's table (spec/30_encoding.md R90). -/

namespace Sys2Proof

theorem assembleImm_of_le {n : Nat} (h : n ≤ 255) : assembleImm n = some (BitVec.ofNat 8 n) :=
  if_pos (Nat.lt_succ_of_le h)

theorem assembleImm_of_gt {n : Nat} (h : 255 < n) : assembleImm n = none := if_neg (Nat.not_lt.mpr h)

theorem assembleImm_toNat (b : Byte) : assembleImm b.toNat = some b := by
  rw [assembleImm_of_le (Nat.le_of_lt_succ b.isLt), BitVec.ofNat_toNat, BitVec.setWidth_eq]

/-- An accepted `#n` is the value of a byte. -/
theorem assembleImm_map_eq_some {n : Nat} {f : Byte → Instr} {i : Instr} (h : (assembleImm n).map f = some i) :
    ∃ b, n = b.toNat ∧ i = f b := by
  rcases Nat.lt_or_ge 255 n with hn | hn
  · simp [assembleImm_of_gt hn] at h
  · rw [assembleImm_of_le hn] at h
    cases h
    exact ⟨BitVec.ofNat 8 n, (Nat.mod_eq_of_lt (Nat.lt_succ_of_le hn)).symm, rfl⟩

/-- The operands of a command, in the order of R90's table. -/
def Instr.operands : Instr → List AsmOperand
  | .gfmul m => [.imm m.toNat]
  | .subst t => [.substTable t]
  | .rotrow k d => [.imm k.toNat, .dir d]
  | .shrows o d => [.order o, .dir d]
  | .mixcol o t m => [.order o, .mixTable t, .imm m.toNat]
  | _ => []

/-- The assembler accepts a well-formed command with its operands (R90). -/
theorem assemble_operands {i : Instr} (hw : i.wellFormed = true) : assemble i.opcode i.operands = some i := by
  cases i with
  | gfmul | rotrow => simp only [Instr.opcode, Instr.operands, assemble, assembleImm_toNat, Option.map_some]
  | mixcol o t m =>
    simp only [Instr.opcode, Instr.operands, assemble, assembleImm_toNat, Option.map_some,
      Instr.wellFormed_mixcol.mp hw, if_true]
  | _ => rfl

/-- What the assembler accepts is a well-formed command of the mnemonic with its operands (R90). -/
theorem assemble_inversion {op : Opcode} {operands : List AsmOperand} {i : Instr} (h : assemble op operands = some i) :
    i.opcode = op ∧ i.operands = operands ∧ i.wellFormed = true := by
  unfold assemble at h
  split at h
  case h_2 | h_4 =>
    obtain ⟨b, rfl, rfl⟩ := assembleImm_map_eq_some h
    exact ⟨rfl, rfl, rfl⟩
  case h_6 =>
    split at h
    · obtain ⟨b, rfl, rfl⟩ := assembleImm_map_eq_some h
      exact ⟨rfl, rfl, Instr.wellFormed_mixcol.mpr ‹_›⟩
    · cases h
  case h_18 => cases h
  all_goals
    cases h
    exact ⟨rfl, rfl, rfl⟩

/-! ### The words of R90's table -/

/-- The word of a command with IMM8 is `n * 0x10000` and the value of its other fields. -/
theorem encode_of_imm8 {i : Instr} {n k : Nat} (hn : n ≤ 255) (hi : i.fields.imm8 = BitVec.ofNat 8 n)
    (hk : k < 2 ^ 16) (hrest : Fields.word { i.fields with imm8 := 0 } i.opcode.byte = BitVec.ofNat 32 k) :
    encode i = BitVec.ofNat 32 (n * 0x10000 + k) := by
  have hsplit : encode i = place i.fields.imm8 16 ||| BitVec.ofNat 32 k := by
    rw [← hrest, encode_eq_word]
    simp [Fields.word, BitVec.or_assoc]
  have himm : (place (BitVec.ofNat 8 n) 16).toNat = n <<< 16 := by
    simp only [place, BitVec.toNat_shiftLeft, BitVec.toNat_setWidth, BitVec.toNat_ofNat, Nat.shiftLeft_eq]
    omega
  rw [hsplit, hi]
  apply BitVec.eq_of_toNat_eq
  rw [BitVec.toNat_or, himm, BitVec.toNat_ofNat, Nat.mod_eq_of_lt (by omega), ← Nat.shiftLeft_add_eq_or_of_lt hk,
    Nat.shiftLeft_eq, BitVec.toNat_ofNat, Nat.mod_eq_of_lt (by omega)]

section
variable {n : Nat} (hn : n ≤ 255)
include hn

theorem assemble_gfmul : assemble .gfmul [.imm n] = some (.gfmul (BitVec.ofNat 8 n)) := by
  simp only [assemble, assembleImm_of_le hn, Option.map_some]

theorem assemble_rotrow (d : Dir) : assemble .rotrow [.imm n, .dir d] = some (.rotrow (BitVec.ofNat 8 n) d) := by
  simp only [assemble, assembleImm_of_le hn, Option.map_some]

theorem assemble_mixcol {o : Order} {t : MixTable} (h : t.order = o) :
    assemble .mixcol [.order o, .mixTable t, .imm n] = some (.mixcol o t (BitVec.ofNat 8 n)) := by
  simp only [assemble, assembleImm_of_le hn, Option.map_some, h, if_true]

theorem gfmul_word : (assemble .gfmul [.imm n]).map encode = some (BitVec.ofNat 32 (n * 0x10000 + 0x01)) := by
  have hrest : Fields.word {} Opcode.gfmul.byte = 0x01 := rfl
  rw [assemble_gfmul hn, Option.map_some, encode_of_imm8 (i := .gfmul (BitVec.ofNat 8 n)) hn rfl (by decide) hrest]

theorem rotrow_word {d : Dir} {k : Nat} (hk : k < 2 ^ 16)
    (hrest : Fields.word { dir := d.code } Opcode.rotrow.byte = BitVec.ofNat 32 k) :
    (assemble .rotrow [.imm n, .dir d]).map encode = some (BitVec.ofNat 32 (n * 0x10000 + k)) := by
  rw [assemble_rotrow hn, Option.map_some, encode_of_imm8 (i := .rotrow (BitVec.ofNat 8 n) d) hn rfl hk hrest]

theorem mixcol_word {o : Order} {t : MixTable} {k : Nat} (h : t.order = o) (hk : k < 2 ^ 16)
    (hrest : Fields.word { tsel := t.code, ord := o.code } Opcode.mixcol.byte = BitVec.ofNat 32 k) :
    (assemble .mixcol [.order o, .mixTable t, .imm n]).map encode = some (BitVec.ofNat 32 (n * 0x10000 + k)) := by
  rw [assemble_mixcol hn h, Option.map_some, encode_of_imm8 (i := .mixcol o t (BitVec.ofNat 8 n)) hn rfl hk hrest]

end

/-! ### What the assembler refuses (R90) -/

theorem assemble_mixcol_wrong_order {o : Order} {t : MixTable} (n : Nat) (h : t.order ≠ o) :
    assemble .mixcol [.order o, .mixTable t, .imm n] = none := by
  simp only [assemble, h, if_false]

theorem assemble_imm_out_of_range {n : Nat} (h : 255 < n) :
    assemble .gfmul [.imm n] = none ∧ (∀ d, assemble .rotrow [.imm n, .dir d] = none) ∧
      ∀ o t, assemble .mixcol [.order o, .mixTable t, .imm n] = none := by
  simp only [assemble, assembleImm_of_gt h, Option.map_none, ite_self, implies_true, and_self]

/-- The commands with neither operands nor fields. -/
def plainCommands : List Instr :=
  [.nop, .addb, .addbt, .xkeyc, .xkeyh, .xaeencr, .xaedecr, .xaeenc, .xaedec, .xwhrnd, .xwhcmp, .xwhhash]

/-- Settles O5: the assembler accepts exactly the well-formed commands with their operands; R90's words
follow row by row. -/
theorem assemblerAcceptsTheCommands : Obligations.AssemblerAcceptsTheCommands := by
  unfold Obligations.AssemblerAcceptsTheCommands
  refine ⟨fun op operands i h => ?_, fun i hw => ⟨i.operands, assemble_operands hw⟩,
    fun o t n h => assemble_mixcol_wrong_order n h, fun n h => assemble_imm_out_of_range h, fun n hn => ?_, ?_, ?_⟩
  · obtain ⟨hop, -, hw⟩ := assemble_inversion h
    exact ⟨hop, hw⟩
  · exact ⟨gfmul_word hn, rotrow_word hn (by decide) rfl, rotrow_word hn (by decide) rfl,
      mixcol_word hn rfl (by decide) rfl, mixcol_word hn rfl (by decide) rfl, mixcol_word hn rfl (by decide) rfl⟩
  · exact ⟨rfl, rfl, rfl, rfl, rfl, rfl, rfl⟩
  · change ∀ row ∈ plainCommands.map fun i => (i.opcode, encode i), _
    decide

end Sys2Proof
end

section
/-! SUPPORT. That every step and every command ends in a next state, and the step of a CMD write
(spec/30_encoding.md R94, R95, spec/60_exceptions.md R210, R216). -/

namespace Sys2Proof.Machine

/-- Every command completes (R95, R210). -/
theorem exec_completes (i : Instr) (s : State) : ∃ t, exec i s = .next t ∧ t.busy = false ∧ t.done = true := by
  rcases exec_cases i s with ⟨c, -, h⟩ | ⟨-, h⟩
  · exact ⟨_, h, rfl, rfl⟩
  · exact ⟨_, h, rfl, rfl⟩

theorem completion_answers (s : State) : ∃ t, completion s = .next t := by
  rcases completion_cases s with ⟨d, -, h⟩ | ⟨i, -, ⟨c, -, h⟩ | ⟨-, h⟩⟩
  · exact ⟨_, h⟩
  · exact ⟨_, h⟩
  · exact ⟨_, h⟩

theorem engineTurn_answers (s : State) : ∃ t, engineTurn s = .next t := by
  rcases engineTurn_cases s with ⟨-, h⟩ | ⟨-, h⟩
  · exact ⟨_, h⟩
  · rw [h]
    exact completion_answers s

theorem move_answers (m : Move) (s : State) : ∃ t, move m s = .next t := by
  cases m with
  | engine => exact engineTurn_answers s
  | access a => exact ⟨_, rfl⟩
  | hardReset => exact ⟨_, rfl⟩
  | powerOn => exact ⟨_, rfl⟩

/-- Settles O7: each move answers a next state, and both ends of a command clear BUSY and set DONE. -/
theorem everyStepAnswers : Obligations.EveryStepAnswers := by
  unfold Obligations.EveryStepAnswers
  exact ⟨fun s => move_answers s.nextMove _, exec_completes⟩

/-- Settles O26: the access is a write of CMD, which launches an idle machine and sets DROP of a running one. -/
theorem cmdWriteLaunchesOrIsDropped : Obligations.CmdWriteLaunchesOrIsDropped := by
  unfold Obligations.CmdWriteLaunchesOrIsDropped
  intro s v rest h
  rw [step_of_reg_write (r := .cmd) h]
  constructor
  · intro hb
    rw [writeReg_cmd_of_idle (s := { s with agenda := rest }) v hb]
    rfl
  · intro hb
    rw [writeReg_cmd_of_busy (s := { s with agenda := rest }) v hb]
    rfl

end Sys2Proof.Machine
end

section
/-! SUPPORT. `gf_mul` as the product of polynomials over GF(2), reduced modulo `x^8 + m(x)` (spec/40_gf_transforms.md R100,
R101). The loop keeps the product congruent, and a byte is the only residue of its class, so every law of `gf_mul` is one of
polynomials. -/

namespace Sys2Proof.Machine

open Polynomial

/-! ### The polynomial of a byte -/

theorem coeff_ite_X_pow (b : Bool) (n i : Nat) :
    (if b then X ^ n else 0 : Polynomial (ZMod 2)).coeff i = if i = n then (if b then 1 else 0) else 0 := by
  cases b <;> simp [coeff_X_pow]

theorem coeff_bytePoly (v : Byte) (i : Nat) : (bytePoly v).coeff i = if v.getLsbD i then 1 else 0 := by
  rw [bytePoly, finsetSum_coeff, Finset.sum_congr rfl fun j _ => coeff_ite_X_pow (v.getLsbD j) j i,
    Finset.sum_ite_eq]
  split
  · rfl
  · next hi => rw [BitVec.getLsbD_of_ge v i (by simpa using hi)]; rfl

@[simp] theorem bytePoly_zero : bytePoly 0#8 = 0 := by
  ext i
  simp [coeff_bytePoly]

@[simp] theorem bytePoly_one : bytePoly 1#8 = 1 := by
  ext i
  simp [coeff_bytePoly, coeff_one]

theorem bytePoly_xor (u v : Byte) : bytePoly (u ^^^ v) = bytePoly u + bytePoly v := by
  ext i
  rw [coeff_add, coeff_bytePoly, coeff_bytePoly, coeff_bytePoly, BitVec.getLsbD_xor]
  cases u.getLsbD i <;> cases v.getLsbD i <;> decide

theorem bytePoly_injective {u v : Byte} (h : bytePoly u = bytePoly v) : u = v := by
  apply BitVec.eq_of_getLsbD_eq
  intro i _
  have hi := congrArg (Polynomial.coeff · i) h
  simp only [coeff_bytePoly] at hi
  cases hu : u.getLsbD i <;> cases hv : v.getLsbD i <;> simp [hu, hv] at hi ⊢

theorem degree_bytePoly_lt (v : Byte) : (bytePoly v).degree < (8 : ℕ) := by
  rw [degree_lt_iff_coeff_zero]
  intro i hi
  rw [coeff_bytePoly, BitVec.getLsbD_of_ge v i hi]
  rfl

/-- Multiplying by `x` shifts the byte left; bit 7 becomes the term `x^8`. -/
theorem X_mul_bytePoly (v : Byte) : X * bytePoly v = bytePoly (v <<< 1) + if v.getLsbD 7 then X ^ 8 else 0 := by
  ext i
  rw [coeff_add, coeff_ite_X_pow, coeff_bytePoly, BitVec.getLsbD_shiftLeft]
  cases i with
  | zero => simp
  | succ i =>
    rw [coeff_X_mul, coeff_bytePoly]
    rcases lt_trichotomy i 7 with h | rfl | h
    · simp [h.ne, show i + 1 < 8 by omega]
    · simp
    · simp [BitVec.getLsbD_of_ge v i h, h.ne']

/-- A byte is its bit 0 and `x` times the byte shifted right. -/
theorem bytePoly_shiftRight (v : Byte) :
    bytePoly v = (if v.getLsbD 0 then X ^ 0 else 0) + X * bytePoly (v >>> 1) := by
  ext i
  rw [coeff_add, coeff_ite_X_pow, coeff_bytePoly]
  cases i with
  | zero => simp
  | succ i => rw [coeff_X_mul, coeff_bytePoly, BitVec.getLsbD_ushiftRight, Nat.add_comm 1 i]; simp

/-! ### The loop of `gf_mul` -/

/-- One shift with reduction multiplies by `x` modulo `x^8 + m(x)`. -/
theorem bytePoly_xtime (m a : Byte) : X ^ 8 + bytePoly m ∣ X * bytePoly a - bytePoly (xtime m a) := by
  rw [X_mul_bytePoly, xtime]
  split
  · rw [bytePoly_xor, add_sub_add_left_eq_sub, CharTwo.sub_eq_add]
  · simp

theorem bytePoly_accumulate (p a : Byte) (c : Bool) :
    bytePoly (if c then p ^^^ a else p) = bytePoly p + (if c then X ^ 0 else 0) * bytePoly a := by
  cases c <;> simp [bytePoly_xor]

/-- `n` steps of R100's loop add the product of `a` and the `n`-bit `b` to the accumulator. -/
theorem bytePoly_gfMulSteps (n : Nat) (a b m p : Byte) (hb : b.toNat < 2 ^ n) :
    X ^ 8 + bytePoly m ∣ bytePoly a * bytePoly b + bytePoly p - bytePoly (gfMulSteps n a b m p) := by
  induction n generalizing a b p with
  | zero =>
    have hzero : b = 0 := BitVec.eq_of_toNat_eq (by simpa using hb)
    simp [hzero, gfMulSteps]
  | succ n ih =>
    have hshift : (b >>> 1).toNat < 2 ^ n := by
      rw [BitVec.toNat_ushiftRight, Nat.shiftRight_eq_div_pow]
      rw [pow_succ] at hb
      omega
    have hrest := ih (xtime m a) (b >>> 1) (if b.getLsbD 0 then p ^^^ a else p) hshift
    rw [bytePoly_accumulate] at hrest
    rw [gfMulSteps, bytePoly_shiftRight b]
    convert dvd_add ((bytePoly_xtime m a).mul_right (bytePoly (b >>> 1))) hrest using 1
    ring

theorem bytePoly_gfMul (a b m : Byte) :
    X ^ 8 + bytePoly m ∣ bytePoly a * bytePoly b - bytePoly (gfMul a b m) := by
  simpa [gfMul] using bytePoly_gfMulSteps 8 a b m 0 b.isLt

/-- Settles O48: the loop adds the product of all 8 bits of `b` to an accumulator of 0. -/
theorem gfMulIsThePolynomialProduct : Obligations.GfMulIsThePolynomialProduct := by
  unfold Obligations.GfMulIsThePolynomialProduct
  exact bytePoly_gfMul

/-! ### The algebra of `gf_mul` -/

/-- Two bytes of one class modulo `x^8 + m(x)` are equal: their difference has a degree below 8. -/
theorem eq_of_modulus_dvd {u v m : Byte} (h : X ^ 8 + bytePoly m ∣ bytePoly u - bytePoly v) : u = v := by
  have hdeg : (bytePoly u - bytePoly v).degree < (X ^ 8 + bytePoly m).degree := by
    rw [degree_add_eq_left_of_degree_lt (by simpa using degree_bytePoly_lt m), degree_X_pow]
    exact (degree_sub_le _ _).trans_lt (max_lt (degree_bytePoly_lt u) (degree_bytePoly_lt v))
  have hmonic : Monic (X ^ 8 + bytePoly m) := monic_X_pow_add (degree_bytePoly_lt m)
  by_contra hne
  exact hmonic.not_dvd_of_degree_lt (sub_ne_zero.mpr fun he => hne (bytePoly_injective he)) hdeg h

/-- A byte congruent to the product is `gf_mul` of the factors. -/
theorem gfMul_eq_of_dvd {a b c m : Byte} (h : X ^ 8 + bytePoly m ∣ bytePoly a * bytePoly b - bytePoly c) :
    gfMul a b m = c :=
  eq_of_modulus_dvd <| by simpa using dvd_sub h (bytePoly_gfMul a b m)

theorem gfMul_comm (a b m : Byte) : gfMul a b m = gfMul b a m :=
  gfMul_eq_of_dvd <| by simpa [mul_comm] using bytePoly_gfMul b a m

theorem gfMul_xor_left (a b c m : Byte) : gfMul (a ^^^ b) c m = gfMul a c m ^^^ gfMul b c m := by
  apply gfMul_eq_of_dvd
  rw [bytePoly_xor, bytePoly_xor, add_mul, add_sub_add_comm]
  exact dvd_add (bytePoly_gfMul a c m) (bytePoly_gfMul b c m)

theorem gfMul_xor_right (a b c m : Byte) : gfMul a (b ^^^ c) m = gfMul a b m ^^^ gfMul a c m := by
  rw [gfMul_comm, gfMul_xor_left, gfMul_comm b, gfMul_comm c]

theorem gfMul_zero_left (b m : Byte) : gfMul 0 b m = 0 := gfMul_eq_of_dvd <| by simp

theorem gfMul_one_left (b m : Byte) : gfMul 1 b m = b := gfMul_eq_of_dvd <| by simp

/-- The parity of the members of `0` to `n - 1` that `p` selects, as a sum over GF(2). -/
theorem sum_range_eq_length_filter (p : Nat → Bool) (n : Nat) :
    ∑ i ∈ Finset.range n, (if p i then 1 else 0 : ZMod 2) = (((List.range n).filter p).length : ZMod 2) := by
  induction n with
  | zero => rfl
  | succ n ih =>
    rw [Finset.sum_range_succ, ih, List.range_succ, List.filter_append, List.length_append, Nat.cast_add]
    cases h : p n <;> simp [h]

/-- A coefficient of the product counts the pairs of set bits that meet in it. -/
theorem coeff_bytePoly_mul (a b : Byte) (k : Nat) : (bytePoly a * bytePoly b).coeff k =
    (((List.range (k + 1)).filter fun i => a.getLsbD i && b.getLsbD (k - i)).length : ZMod 2) := by
  rw [coeff_mul, Finset.Nat.sum_antidiagonal_eq_sum_range_succ_mk, ← sum_range_eq_length_filter]
  refine Finset.sum_congr rfl fun i _ => ?_
  rw [coeff_bytePoly, coeff_bytePoly]
  cases a.getLsbD i <;> simp

/-- With modulus 0 the low 8 coefficients of the product are kept as they are. -/
theorem coeff_bytePoly_gfMul_zero (a b : Byte) {k : Nat} (hk : k < 8) :
    (bytePoly (gfMul a b 0)).coeff k = (bytePoly a * bytePoly b).coeff k := by
  have h := bytePoly_gfMul a b 0
  rw [BitVec.ofNat_eq_ofNat, bytePoly_zero, add_zero, X_pow_dvd_iff] at h
  exact (sub_eq_zero.mp (by simpa using h k hk)).symm

theorem gfMul_zero_getLsbD (a b : Byte) {k : Nat} (hk : k < 8) : (gfMul a b 0).getLsbD k =
    decide (((List.range (k + 1)).filter fun i => a.getLsbD i && b.getLsbD (k - i)).length % 2 = 1) := by
  have h := coeff_bytePoly_gfMul_zero a b hk
  rw [coeff_bytePoly_mul, coeff_bytePoly] at h
  rw [Bool.eq_iff_iff, decide_eq_true_iff, ← Nat.odd_iff, ← ZMod.natCast_eq_one_iff_odd, ← h]
  simp

/-- Settles O49: the laws of the product of polynomials, carried over to the bytes of its classes. -/
theorem gfMulAlgebra : Obligations.GfMulAlgebra := by
  unfold Obligations.GfMulAlgebra
  exact fun a b c m => ⟨gfMul_comm a b m, gfMul_xor_left a b c m, gfMul_xor_right a b c m, gfMul_zero_left b m,
    gfMul_one_left b m, fun _ hk => gfMul_zero_getLsbD a b hk⟩

end Sys2Proof.Machine
end

section
/-! SUPPORT. The rotation of a row by its index formulas, what each byte of `add` and `add_trunc` is, and that the block
transforms undo each other (spec/40_gf_transforms.md R102 to R108). -/

namespace Sys2Proof.Machine

/-! ### Sequences by their bytes -/

/-- Two sequences of one length with the same byte at each index are equal. -/
theorem eq_of_getD {x y : List Byte} (hlen : x.length = y.length) (h : ∀ i < x.length, x.getD i 0 = y.getD i 0) :
    x = y := by
  refine List.ext_getElem hlen fun i hx hy => ?_
  simpa [hx, hy] using h i hx

/-- A sequence of `n` bytes, written out index by index. -/
theorem eq_map_range {x : List Byte} {n : Nat} {f : Nat → Byte} (hlen : x.length = n)
    (h : ∀ i < n, x.getD i 0 = f i) : x = (List.range n).map f :=
  eq_of_getD (by simpa using hlen) fun i hi => by rw [h i (hlen ▸ hi)]; simp [hlen ▸ hi]

/-- An index into rows of `w` bytes is its row and its place in the row. -/
theorem row_place {w n q : Nat} (h : q < n * w) : q / w < n ∧ q % w < w ∧ q = q / w * w + q % w :=
  ⟨Nat.div_lt_of_lt_mul (by rwa [Nat.mul_comm]), Nat.mod_lt _ (Nat.pos_of_lt_mul_left h),
    (Nat.div_add_mod' q w).symm⟩

/-- A place in a row lies in the sequence of the rows. -/
theorem row_place_lt {w n i j : Nat} (hi : i < n) (hj : j < w) : i * w + j < n * w :=
  calc i * w + j < (i + 1) * w := by rw [Nat.succ_mul]; omega
    _ ≤ n * w := Nat.mul_le_mul_right _ hi

/-! ### Rotation -/

/-- A number below twice the divisor wraps at most once. -/
theorem mod_eq_ite {x n : Nat} (h : x < n + n) : x % n = if x < n then x else x - n := by
  split
  · exact Nat.mod_eq_of_lt ‹_›
  · rw [Nat.mod_eq_sub_mod (by omega), Nat.mod_eq_of_lt (by omega)]

/-- The direction that undoes a rotation (R103). -/
def Dir.reverse : Dir → Dir
  | .fwd => .bwd
  | .bwd => .fwd

/-- Towards index 0, the index read wraps at the end of the row (R103). -/
theorem rotIndex_fwd {n i : Nat} (k : Nat) (h : i < n) :
    rotIndex n k .fwd i = if i + k % n < n then i + k % n else i + k % n - n :=
  mod_eq_ite (by have := Nat.mod_lt k (Nat.zero_lt_of_lt h); omega)

/-- Away from index 0, the index read wraps at the start of the row (R103). -/
theorem rotIndex_bwd {n i : Nat} (k : Nat) (h : i < n) :
    rotIndex n k .bwd i = if i + n - k % n < n then i + n - k % n else i + n - k % n - n :=
  mod_eq_ite (by have := Nat.mod_lt k (Nat.zero_lt_of_lt h); omega)

theorem rotIndex_reverse {n i : Nat} (k : Nat) (d : Dir) (h : i < n) :
    rotIndex n k d (rotIndex n k (Dir.reverse d) i) = i := by
  have hk : k % n < n := Nat.mod_lt _ (by omega)
  have hin : rotIndex n k (Dir.reverse d) i < n := rotIndex_lt _ _ _ (by omega)
  cases d with
  | fwd =>
    rw [rotIndex_fwd k hin, Dir.reverse, rotIndex_bwd k h]
    split_ifs <;> omega
  | bwd =>
    rw [rotIndex_bwd k hin, Dir.reverse, rotIndex_fwd k h]
    split_ifs <;> omega

/-- Rotating one way and then as far the other way gives the row back (R103). -/
theorem rotateRow_reverse (row : List Byte) (k : Nat) (d : Dir) :
    rotateRow (rotateRow row k d) k (Dir.reverse d) = row := by
  apply eq_of_getD (by simp)
  intro i hi
  rw [rotateRow_length, rotateRow_length] at hi
  have hpos : 0 < row.length := by omega
  rw [rotateRow_getD _ _ (by rwa [rotateRow_length]), rotateRow_length, rotateRow_getD _ _ (rotIndex_lt _ _ _ hpos),
    rotIndex_reverse k d hi]

/-- Settles O50: `rotateRow_getD` at each direction, and the two directions are each other's reverse. -/
theorem rotationFormulas : Obligations.RotationFormulas := by
  unfold Obligations.RotationFormulas
  exact fun row k _ => ⟨rotateRow_length row k, fun _ hi => rotateRow_getD k .fwd hi,
    fun _ hi => rotateRow_getD k .bwd hi, rotateRow_reverse row k .fwd, rotateRow_reverse row k .bwd⟩

/-! ### The block transforms -/

/-- `shift_rows` in one direction and then in the other gives the state back (R108). -/
theorem shiftRows_reverse {x : List Byte} {side : Nat} (d : Dir) (hx : x.length = side * side) :
    shiftRows (shiftRows x side d) side (Dir.reverse d) = x := by
  have honce := shiftRows_length d hx
  have htwice := shiftRows_length (Dir.reverse d) honce
  apply eq_of_getD (by rw [htwice, hx])
  intro q hq
  obtain ⟨hrow, hplace, he⟩ := row_place (htwice ▸ hq)
  rw [he, shiftRows_getD _ honce hrow hplace, shiftRows_getD _ hx hrow (rotIndex_lt _ _ _ (by omega)),
    rotIndex_reverse _ _ hplace]

theorem addBytes_getD {a b : List Byte} {i : Nat} (ha : i < a.length) (hb : i < b.length) :
    (addBytes a b).getD i 0 = a.getD i 0 ^^^ b.getD i 0 := by
  simp [addBytes, ha, hb]

/-- Adding the same sequence twice gives the first one back (R108). -/
theorem addBytes_cancel {a b : List Byte} (h : a.length = b.length) : addBytes (addBytes a b) b = a := by
  have hlen : (addBytes a b).length = a.length := by simp [h]
  apply eq_of_getD (by simp [h])
  intro i hi
  have ha : i < a.length := by simpa [h] using hi
  rw [addBytes_getD (hlen ▸ ha) (h ▸ ha), addBytes_getD ha (h ▸ ha), BitVec.xor_assoc, BitVec.xor_self,
    BitVec.xor_zero]

/-- `add_trunc` adds over the overlap and copies the rest (R107). -/
theorem addTrunc_getD (a b : List Byte) {i : Nat} (h : i < a.length) :
    (addTrunc a b).getD i 0 = if i < b.length then a.getD i 0 ^^^ b.getD i 0 else a.getD i 0 := by
  induction a generalizing b i with
  | nil => simp at h
  | cons x a ih =>
    cases b with
    | nil => simp [addTrunc]
    | cons y b =>
      cases i with
      | zero => simp [addTrunc]
      | succ i => simpa [addTrunc] using ih b (by simpa using h)

/-- A table undoes another byte by byte when it undoes it at every byte (R102, R108). -/
theorem substitute_undo {f g : Byte → Byte} (h : ∀ v, g (f v) = v) (x : List Byte) :
    substitute g (substitute f x) = x := by
  rw [substitute, substitute, List.map_map, show g ∘ f = id from funext h, List.map_id]

/-- Settles O51: rows rotated and rotated back, bytes added twice, and the premises on the tables. -/
theorem transformsUndo : Obligations.TransformsUndo := by
  unfold Obligations.TransformsUndo
  exact ⟨fun _ _ hx => ⟨shiftRows_reverse .fwd hx, shiftRows_reverse .bwd hx⟩, fun _ _ h => addBytes_cancel h,
    fun _ hT => substitute_undo hT, fun _ hT => hT⟩

end Sys2Proof.Machine
end

section
/-! SUPPORT. NOP, GFMUL and the block-transform commands complete, each with the bytes of its transform
(spec/40_gf_transforms.md R110 to R117). The checks pass where the regions fit, and the bytes of an effect are written out
index by index. -/

namespace Sys2Proof.Machine

/-! ### Completion with code 0 -/

theorem completeOk_succeeds (s : State) (e : Effect) : Succeeds s (s.completeOk e) e.addr e.bytes e.result where
  busy := rfl
  done := rfl
  errcode := rfl
  err := rfl
  result_eq := rfl
  outlen := rfl
  stored _ hi := State.byteAt_writeBytes_inside (State.completeOk_mem s e) hi
  kept _ ha := State.byteAt_writeBytes_outside (State.completeOk_mem s e) rfl ha
  beside := completeOk_sameBeside s e

/-- A command whose checks pass succeeds with its effect (R95, R215). -/
theorem exec_succeeds {i : Instr} {s : State} (h : checkInstr i s = none) :
    ∃ t, exec i s = .next t ∧ Succeeds s t (effectOf Config.tables i s).addr (effectOf Config.tables i s).bytes
      (effectOf Config.tables i s).result :=
  ⟨_, by rw [exec_eq, complete_of_ok _ h], completeOk_succeeds s _⟩

/-- A command whose checks pass and that writes `bytes` to the region at DST. -/
theorem exec_succeeds_toDst {i : Instr} {s : State} {bytes : List Byte} (h : checkInstr i s = none)
    (he : effectOf Config.tables i s = .toDst s bytes) :
    ∃ t, exec i s = .next t ∧ Succeeds s t s.snapshot.dst.toNat bytes 0 := by
  have := exec_succeeds h
  rwa [he] at this

/-- A command whose checks fail completes with the error (R95, R214). -/
theorem exec_fails {i : Instr} {s : State} {c : ErrorCode} (h : checkInstr i s = some c) :
    ∃ t, exec i s = .next t ∧ FailsWith s t c :=
  ⟨_, by rw [exec_eq, complete_of_error _ h], completeError_failsWith s c⟩

theorem Region.fits_of_le {base n : Nat} (h : base + n ≤ 65536) : Region.fits ⟨base, n⟩ = true :=
  (Region.fits_iff _).mpr (.inr h)

/-- The checks of a row that has no marker to read: nothing of R211 applies, and every region fits. -/
theorem checkInstr_eq_none {i : Instr} {s : State} (hm : (requirements i s.snapshot).marker = none)
    (herr : (requirements i s.snapshot).badSelect = false ∧ (requirements i s.snapshot).badKeySize = false ∧
      (requirements i s.snapshot).zeroLength = false ∧ (requirements i s.snapshot).emptyInput = false ∧
      (requirements i s.snapshot).badCiphertextSize = false)
    (hin : ∀ r ∈ (requirements i s.snapshot).inputs, r.fits = true)
    (hout : (requirements i s.snapshot).output.fits = true) : checkInstr i s = none :=
  check_eq_none.mpr ⟨herr, ⟨hin, hout⟩, fun a ha => absurd (hm.symm.trans ha) (by simp)⟩

/-! ### NOP and GFMUL -/

/-- Settles O11: NOP has nothing to check and an effect of no bytes. -/
theorem nopCompletes : Obligations.NopCompletes := by
  unfold Obligations.NopCompletes
  exact fun s => exec_succeeds (i := .nop) (s := s) rfl

/-- Settles O12: GFMUL has nothing to check, and its effect is the product alone. -/
theorem gfmulCompletes : Obligations.GfmulCompletes := by
  unfold Obligations.GfmulCompletes
  exact fun m s => exec_succeeds (checkInstr_gfmul m s)

/-! ### The bytes of each transform of the regions at SRC and KEY -/

theorem readSrc_getD (s : State) {n i : Nat} (h : i < n) :
    (s.readSrc n).getD i 0 = s.byteAt (s.snapshot.src.toNat + i) := State.readBytes_getD _ _ _ _ h

theorem readKey_getD (s : State) {n i : Nat} (h : i < n) :
    (s.readKey n).getD i 0 = s.byteAt (s.snapshot.key.toNat + i) := State.readBytes_getD _ _ _ _ h

theorem substitute_readSrc (s : State) (f : Byte → Byte) (n : Nat) :
    substitute f (s.readSrc n) = (List.range n).map fun i => f (s.byteAt (s.snapshot.src.toNat + i)) := List.map_map

theorem rotateRow_readSrc (s : State) (n k : Nat) (d : Dir) :
    rotateRow (s.readSrc n) k d =
      (List.range n).map fun i => s.byteAt (s.snapshot.src.toNat + rotIndex n k d i) := by
  refine eq_map_range (by simp) fun i hi => ?_
  rw [rotateRow_getD _ _ (by simpa using hi), State.readSrc_length, readSrc_getD s (rotIndex_lt _ _ _ (by omega))]

theorem shiftRows_readSrc (s : State) (side : Nat) (d : Dir) :
    shiftRows (s.readSrc (side * side)) side d = (List.range (side * side)).map fun q =>
      s.byteAt (s.snapshot.src.toNat + (q / side * side + rotIndex side (q / side) d (q % side))) := by
  have hlen := State.readSrc_length s (side * side)
  refine eq_map_range (shiftRows_length d hlen) fun q hq => ?_
  obtain ⟨hrow, hplace, he⟩ := row_place hq
  have hread : rotIndex side (q / side) d (q % side) < side := rotIndex_lt _ _ _ (by omega)
  conv_lhs => rw [he, shiftRows_getD d hlen hrow hplace, readSrc_getD s (row_place_lt hrow hread)]

/-- The sum of R105, its terms those of the state at SRC. -/
theorem mixColumns_readSrc (s : State) (side : Nat) (M : Fin side → Fin side → Byte) (m : Byte) (i j : Fin side) :
    (mixColumns (s.readSrc (side * side)) side M m).getD (side * i.val + j.val) 0 =
      (List.finRange side).foldl
        (fun acc k => acc ^^^ gfMul (M i k) (s.byteAt (s.snapshot.src.toNat + (k.val * side + j.val))) m) 0 := by
  rw [Nat.mul_comm side i.val, mixColumns_getD]
  refine List.foldl_ext _ _ _ fun acc k _ => ?_
  rw [readSrc_getD s (row_place_lt k.isLt j.isLt)]

theorem addBytes_readSrc_readKey (s : State) (n : Nat) : addBytes (s.readSrc n) (s.readKey n) =
    (List.range n).map fun i =>
      s.byteAt (s.snapshot.src.toNat + i) ^^^ s.byteAt (s.snapshot.key.toNat + i) := by
  refine eq_map_range (by simp) fun i hi => ?_
  rw [addBytes_getD (by simpa using hi) (by simpa using hi), readSrc_getD s hi, readKey_getD s hi]

theorem addTrunc_readSrc_readKey (s : State) (n k : Nat) : addTrunc (s.readSrc n) (s.readKey k) =
    (List.range n).map fun i =>
      if i < k then s.byteAt (s.snapshot.src.toNat + i) ^^^ s.byteAt (s.snapshot.key.toNat + i)
      else s.byteAt (s.snapshot.src.toNat + i) := by
  refine eq_map_range (by simp) fun i hi => ?_
  rw [addTrunc_getD _ _ (by simpa using hi), readSrc_getD s hi, State.readKey_length]
  split
  · next hk => rw [readKey_getD s hk]
  · rfl

/-! ### The block-transform commands -/

/-- Settles O13: the S-box applied to each byte read. -/
theorem substCompletes : Obligations.SubstCompletes := by
  unfold Obligations.SubstCompletes
  intro k s p hn hsrc hdst
  have hcheck : checkInstr (.subst k) s = none :=
    checkInstr_eq_none rfl ⟨rfl, rfl, decide_eq_false hn, rfl, rfl⟩
      (List.forall_mem_singleton.mpr (Region.fits_of_le hsrc)) (Region.fits_of_le hdst)
  refine exec_succeeds_toDst hcheck (congrArg (Effect.toDst s) ((substitute_readSrc s _ _).trans ?_))
  cases k <;> rfl

/-- Settles O14: each byte comes from the index that `rot` reads. -/
theorem rotrowCompletes : Obligations.RotrowCompletes := by
  unfold Obligations.RotrowCompletes
  intro k d s p n hn hsrc hdst
  have hcheck : checkInstr (.rotrow k d) s = none :=
    checkInstr_eq_none rfl ⟨rfl, rfl, decide_eq_false hn, rfl, rfl⟩
      (List.forall_mem_singleton.mpr (Region.fits_of_le hsrc)) (Region.fits_of_le hdst)
  refine exec_succeeds_toDst hcheck (congrArg (Effect.toDst s) ((rotateRow_readSrc s n _ d).trans ?_))
  cases d with
  | fwd => simp only [rotIndex, Nat.add_mod_mod]; rfl
  | bwd => rfl

/-- Settles O15: each byte comes from its own row, at the index that `rot` by the row's number reads. -/
theorem shrowsCompletes : Obligations.ShrowsCompletes := by
  unfold Obligations.ShrowsCompletes
  intro o d s p O hsrc hdst
  have hcheck : checkInstr (.shrows o d) s = none :=
    checkInstr_eq_none rfl ⟨rfl, rfl, rfl, rfl, rfl⟩
      (List.forall_mem_singleton.mpr (Region.fits_of_le hsrc)) (Region.fits_of_le hdst)
  refine exec_succeeds_toDst hcheck (congrArg (Effect.toDst s) ((shiftRows_readSrc s O d).trans ?_))
  refine List.map_congr_left fun q hq => ?_
  obtain ⟨hrow, -, -⟩ := row_place (List.mem_range.mp hq)
  cases d <;> rw [rotIndex, Nat.mod_eq_of_lt hrow]

/-- Settles O16: the check of the table select decides; then the bytes are those of `mix`. -/
theorem mixcolCompletes : Obligations.MixcolCompletes := by
  unfold Obligations.MixcolCompletes
  intro o k m s p x
  constructor
  · intro ho
    exact exec_fails (by simp [checkInstr, check, requirements, ho])
  · rintro rfl hsrc hdst
    have hcheck : checkInstr (.mixcol k.order k m) s = none :=
      checkInstr_eq_none rfl ⟨by simp [requirements], rfl, rfl, rfl, rfl⟩
        (List.forall_mem_singleton.mpr (Region.fits_of_le hsrc)) (Region.fits_of_le hdst)
    obtain ⟨t, hexec, hsucc⟩ := exec_succeeds_toDst hcheck rfl
    refine ⟨t, _, hexec, hsucc, mixWith_length _ _ _ _, ?_⟩
    cases k with
    | cs =>
      intro i j
      exact (mixColumns_readSrc s 4 Config.tables.mixCS m i j).trans (by simp [List.finRange_succ, x, p])
    | cf =>
      intro i j
      exact (mixColumns_readSrc s 4 Config.tables.mixCF m i j).trans (by simp [List.finRange_succ, x, p])
    | hs =>
      intro i j
      exact (mixColumns_readSrc s 8 Config.tables.mixHS m i j).trans (by simp [List.finRange_succ, x, p])

/-- Settles O17: `add` of the two regions, byte by byte. -/
theorem addbCompletes : Obligations.AddbCompletes := by
  unfold Obligations.AddbCompletes
  intro s p n hn hsrc hkey hdst
  have hcheck : checkInstr .addb s = none :=
    checkInstr_eq_none rfl ⟨rfl, rfl, decide_eq_false hn, rfl, rfl⟩
      (List.forall_mem_cons.mpr ⟨Region.fits_of_le hsrc, List.forall_mem_singleton.mpr (Region.fits_of_le hkey)⟩)
      (Region.fits_of_le hdst)
  exact exec_succeeds_toDst hcheck (congrArg (Effect.toDst s) (addBytes_readSrc_readKey s n))

/-- Settles O18: `add_trunc` of the two regions, byte by byte; a key of no bytes has no range to check. -/
theorem addbtCompletes : Obligations.AddbtCompletes := by
  unfold Obligations.AddbtCompletes
  intro s p n hn hsrc hkey hdst
  have hcheck : checkInstr .addbt s = none :=
    checkInstr_eq_none rfl ⟨rfl, rfl, decide_eq_false hn, rfl, rfl⟩
      (List.forall_mem_cons.mpr
        ⟨Region.fits_of_le hsrc, List.forall_mem_singleton.mpr ((Region.fits_iff _).mpr hkey)⟩)
      (Region.fits_of_le hdst)
  exact exec_succeeds_toDst hcheck (congrArg (Effect.toDst s) (addTrunc_readSrc_readKey s n _))

end Sys2Proof.Machine
end

section
/-! SUPPORT. The two key schedules, word by word and block by block, and the commands that write them to MEM
(spec/41_key_schedules.md R140, R142, R150, R151). -/

namespace Sys2Proof.Machine

/-! ### Rows and padded sums -/

/-- Rows of `w` bytes, joined: the slice at the place of a row is the row. -/
theorem slice_flatten {w : Nat} {rows : List (List Byte)} (h : ∀ r ∈ rows, r.length = w) {i : Nat}
    (hi : i < rows.length) : slice rows.flatten (w * i) w = rows.getD i [] := by
  induction rows generalizing i with
  | nil => simp at hi
  | cons r rows ih =>
    obtain ⟨hr, hrows⟩ := List.forall_mem_cons.mp h
    rw [List.flatten_cons]
    cases i with
    | zero => simp [slice, ← hr]
    | succ i =>
      have hskip : (r ++ rows.flatten).drop (w * (i + 1)) = rows.flatten.drop (w * i) := by
        rw [Nat.mul_succ, Nat.add_comm, ← hr, List.drop_length_add_append]
      rw [slice, hskip, List.getD_cons_succ]
      exact ih hrows (by simpa using hi)

/-- `add_trunc` is `add` of the second sequence with zeros after it (R106, R107). -/
theorem addTrunc_eq_addBytes_zeros {a b : List Byte} (n : Nat) (h : a.length = b.length + n) :
    addTrunc a b = addBytes a (b ++ List.replicate n 0) := by
  apply eq_of_getD (by simp [h])
  intro i hi
  have ha : i < a.length := by simpa using hi
  rw [addTrunc_getD _ _ ha, addBytes_getD ha (by simpa [h] using ha)]
  split
  · next hb => rw [List.getD_append _ _ _ _ hb]
  · next hb =>
    rw [List.getD_append_right _ _ _ _ (by omega), List.getD_replicate _ (by omega)]
    exact BitVec.xor_zero.symm

/-! ### The cipher schedule -/

/-- Each word of the list after the first `W` comes from earlier ones by R140's rule. -/
def FollowsScheduleRule (T : Tables) (W : Nat) (ws : List (List Byte)) : Prop :=
  ∀ i, W ≤ i → i < ws.length →
    ws.getD i [] = addBytes (ws.getD (i - W) []) (scheduleTransform T W i (ws.getD (i - 1) []))

theorem FollowsScheduleRule.snoc {T : Tables} {W : Nat} {ws : List (List Byte)} (hg : GoodWords W ws)
    (h : FollowsScheduleRule T W ws) : FollowsScheduleRule T W (ws ++ [nextScheduleWord T W ws]) := by
  have hpos := hg.pos
  intro i hW hi
  have hle : i ≤ ws.length := by simpa [Nat.lt_succ_iff] using hi
  rw [List.getD_append ws _ _ (i - W) (by omega), List.getD_append ws _ _ (i - 1) (by omega)]
  rcases Nat.lt_or_eq_of_le hle with hlt | rfl
  · rw [List.getD_append _ _ _ _ hlt]
    exact h i hW hlt
  · rw [List.getD_append_right _ _ _ _ (Nat.le_refl _), Nat.sub_self, List.getD_cons_zero, nextScheduleWord]

theorem FollowsScheduleRule.extend {T : Tables} {W : Nat} (n : Nat) {ws : List (List Byte)} (hg : GoodWords W ws)
    (h : FollowsScheduleRule T W ws) : FollowsScheduleRule T W (extendSchedule T W n ws) := by
  induction n generalizing ws with
  | zero => exact h
  | succ n ih => exact ih (hg.snoc T) (h.snoc hg)

/-- The words so far stay as they are when more follow. -/
theorem extendSchedule_getD (T : Tables) (W n : Nat) {ws : List (List Byte)} {i : Nat} (hi : i < ws.length) :
    (extendSchedule T W n ws).getD i [] = ws.getD i [] := by
  induction n generalizing ws with
  | zero => rfl
  | succ n ih => rw [extendSchedule, ih (by simp; omega), List.getD_append _ _ _ _ hi]

@[simp] theorem keyWords_length (key : List Byte) (W : Nat) : (keyWords key W).length = W := by simp [keyWords]

theorem keyWords_getD (key : List Byte) {W i : Nat} (h : i < W) : (keyWords key W).getD i [] = slice key (4 * i) 4 := by
  simp [keyWords, h]

/-- A key alone has no word after its first `W`. -/
theorem keyWords_followsScheduleRule (T : Tables) (key : List Byte) (W : Nat) :
    FollowsScheduleRule T W (keyWords key W) :=
  fun i hW hi => absurd hi (by simpa using hW)

/-- The words of the cipher schedule of a key (R140). -/
def cipherWords (T : Tables) (key : List Byte) : List (List Byte) :=
  extendSchedule T (key.length / 4) (scheduleWords - key.length / 4) (keyWords key (key.length / 4))

theorem expandCipherKey_eq_flatten (T : Tables) (key : List Byte) :
    expandCipherKey T key = (cipherWords T key).flatten := rfl

/-- The schedule starts with the key. -/
theorem cipherWords_getD_key (T : Tables) {key : List Byte} {i : Nat} (hi : i < key.length / 4) :
    (cipherWords T key).getD i [] = slice key (4 * i) 4 := by
  rw [cipherWords, extendSchedule_getD _ _ _ (by simpa using hi), keyWords_getD _ hi]

/-- The accepted cipher key lengths (R8). -/
theorem keyLength_iff (n : Nat) : KeyLength n ↔ n % 4 = 0 ∧ 4 ≤ n ∧ n ≤ 32 := by
  simp only [KeyLength, List.mem_cons, List.not_mem_nil, or_false]
  omega

section
variable (T : Tables) {key : List Byte} (hk : KeyLength key.length)
include hk

theorem cipherWords_good : GoodWords (key.length / 4) (cipherWords T key) ∧ (cipherWords T key).length = 60 := by
  rw [keyLength_iff] at hk
  have hext := (keyWords_good (key := key) (by omega)).extend T (scheduleWords - key.length / 4)
  exact ⟨hext.1, hext.2.trans (by rw [keyWords_length, scheduleWords]; omega)⟩

theorem expandCipherKey_length_of_keyLength : (expandCipherKey T key).length = 240 := by
  obtain ⟨-, hmin, hmax⟩ := (keyLength_iff _).mp hk
  exact expandCipherKey_length T hmin (by omega)

/-- Word `i` of the schedule's bytes (R13). -/
theorem slice_expandCipherKey {i : Nat} (hi : i < 60) :
    slice (expandCipherKey T key) (4 * i) 4 = (cipherWords T key).getD i [] := by
  obtain ⟨hg, hlen⟩ := cipherWords_good T hk
  exact slice_flatten hg.four (by omega)

theorem cipherWords_followsScheduleRule : FollowsScheduleRule T (key.length / 4) (cipherWords T key) := by
  rw [keyLength_iff] at hk
  exact (keyWords_followsScheduleRule T key _).extend _ (keyWords_good (by omega))

end

/-- The three branches of R140 on a word of 4 bytes: the round constant enters its first byte alone. -/
theorem scheduleTransform_of_four (T : Tables) (W i : Nat) {t : List Byte} (h : t.length = 4) :
    scheduleTransform T W i t =
      if i % W = 0 then addBytes (substitute T.sboxC (rotateRow t 1 .fwd)) [T.rconC (i / W), 0, 0, 0]
      else if 6 < W ∧ i % W = W / 2 then substitute T.sboxC t
      else t := by
  rw [scheduleTransform, addTrunc_eq_addBytes_zeros 3 (by simp [h])]
  rfl

/-- Settles O56: the bytes of the schedule are those of its words, which keep R140's rule as they grow from the key. -/
theorem cipherScheduleRule : Obligations.CipherScheduleRule := by
  unfold Obligations.CipherScheduleRule
  intro T key hk W w
  obtain ⟨hg, hlen⟩ := cipherWords_good T hk
  have hpos : 0 < W := hg.pos
  have hkey : W ≤ 60 := hg.enough.trans_eq hlen
  have hword : ∀ i < 60, w i = (cipherWords T key).getD i [] := fun i hi => slice_expandCipherKey T hk hi
  refine ⟨expandCipherKey_length_of_keyLength T hk, fun i hi => ?_, fun i hW hi => ?_⟩
  · rw [hword i (by omega), cipherWords_getD_key T hi]
  · rw [hword i hi, hword (i - W) (by omega), hword (i - 1) (by omega),
      cipherWords_followsScheduleRule T hk i hW (by omega),
      scheduleTransform_of_four T _ i (hg.getD_length (by omega))]

/-! ### The hash schedule -/

theorem hashKeyBlocks_count (T : Tables) (n i : Nat) (k : List Byte) : (hashKeyBlocks T n i k).length = n + 1 := by
  induction n generalizing i k with
  | zero => rfl
  | succ n ih => rw [hashKeyBlocks, List.length_cons, ih]

theorem hashKeyBlocks_block_length (T : Tables) (n i : Nat) {k : List Byte} (h : k.length = 64) :
    ∀ b ∈ hashKeyBlocks T n i k, b.length = 64 := by
  induction n generalizing i k with
  | zero => exact List.forall_mem_singleton.mpr h
  | succ n ih => exact List.forall_mem_cons.mpr ⟨h, ih (i + 1) (nextHashKey_length T i k)⟩

@[simp] theorem hashKeyBlocks_getD_zero (T : Tables) (n i : Nat) (k : List Byte) :
    (hashKeyBlocks T n i k).getD 0 [] = k := by cases n <;> rfl

/-- Each block after the first comes from the one before it (R142). -/
theorem hashKeyBlocks_getD_succ (T : Tables) {n j : Nat} (i : Nat) (k : List Byte) (hj : j < n) :
    (hashKeyBlocks T n i k).getD (j + 1) [] = nextHashKey T (i + j) ((hashKeyBlocks T n i k).getD j []) := by
  induction n generalizing i j k with
  | zero => omega
  | succ n ih =>
    rw [hashKeyBlocks, List.getD_cons_succ]
    cases j with
    | zero => rw [hashKeyBlocks_getD_zero, List.getD_cons_zero, Nat.add_zero]
    | succ j => rw [ih (i + 1) _ (by omega), List.getD_cons_succ, Nat.add_assoc, Nat.add_comm 1 j]

/-- A block of the schedule is a hash round whose key is the round constant with zeros after it (R142, R190). -/
theorem nextHashKey_eq_hashRound (T : Tables) (i : Nat) (k : List Byte) :
    nextHashKey T i k = hashRound T k ((T.rconH i).toList ++ List.replicate 56 0) :=
  addTrunc_eq_addBytes_zeros 56 (by simp)

section
variable (T : Tables) {seed : List Byte} (hs : seed.length = 64)
include hs

/-- Block `i` of the schedule's bytes. -/
theorem slice_expandHashKey {i : Nat} (hi : i ≤ 10) :
    slice (expandHashKey T seed) (64 * i) 64 = (hashKeyBlocks T 10 1 seed).getD i [] :=
  slice_flatten (hashKeyBlocks_block_length T 10 1 hs) (by rw [hashKeyBlocks_count]; omega)

theorem slice_expandHashKey_zero : slice (expandHashKey T seed) 0 64 = seed :=
  (slice_expandHashKey T hs (Nat.zero_le 10)).trans (hashKeyBlocks_getD_zero T 10 1 seed)

theorem slice_expandHashKey_succ {i : Nat} (hi : i < 10) :
    slice (expandHashKey T seed) (64 * (i + 1)) 64 =
      nextHashKey T (i + 1) (slice (expandHashKey T seed) (64 * i) 64) := by
  rw [slice_expandHashKey T hs (by omega), slice_expandHashKey T hs (by omega), hashKeyBlocks_getD_succ T 1 seed hi,
    Nat.add_comm 1 i]

end

/-- Settles O57: block by block, and each block after the seed is a hash round of the one before. -/
theorem hashScheduleRule : Obligations.HashScheduleRule := by
  unfold Obligations.HashScheduleRule
  intro T seed hs K
  refine ⟨expandHashKey_length T hs, slice_expandHashKey_zero T hs, fun i h1 h10 => ?_⟩
  obtain ⟨j, rfl⟩ := Nat.exists_eq_add_of_le' h1
  have hnext : K (j + 1) = nextHashKey T (j + 1) (K j) := slice_expandHashKey_succ T hs h10
  exact ⟨hnext, hnext.trans (nextHashKey_eq_hashRound T (j + 1) (K j))⟩

/-! ### XKEYC and XKEYH -/

theorem keySizeOk_of_keyLength {n : Nat} (h : KeyLength n) : keySizeOk n = true :=
  (keySizeOk_iff n).mpr ((keyLength_iff n).mp h)

/-- Settles O19: the checks pass, and the effect is the schedule of the key read. -/
theorem xkeycCompletes : Obligations.XkeycCompletes := by
  unfold Obligations.XkeycCompletes
  intro s p hk hkey hdst
  have hread : KeyLength (s.readKey p.klen.toNat).length := by rwa [State.readKey_length]
  have hcheck : checkInstr .xkeyc s = none :=
    checkInstr_eq_none rfl ⟨rfl, congrArg not (keySizeOk_of_keyLength hk), rfl, rfl, rfl⟩
      (List.forall_mem_singleton.mpr (Region.fits_of_le hkey)) (Region.fits_of_le hdst)
  obtain ⟨t, hexec, hsucc⟩ := exec_succeeds_toDst hcheck rfl
  exact ⟨t, _, hexec, hsucc, expandCipherKey_length_of_keyLength _ hread, rfl⟩

/-- Settles O20: the regions fit, and the effect is the schedule of the seed read. -/
theorem xkeyhCompletes : Obligations.XkeyhCompletes := by
  unfold Obligations.XkeyhCompletes
  intro s p hsrc hdst
  have hcheck : checkInstr .xkeyh s = none :=
    checkInstr_eq_none rfl ⟨rfl, rfl, rfl, rfl, rfl⟩
      (List.forall_mem_singleton.mpr (Region.fits_of_le hsrc)) (Region.fits_of_le hdst)
  obtain ⟨t, hexec, hsucc⟩ := exec_succeeds_toDst hcheck rfl
  exact ⟨t, _, hexec, hsucc, expandHashKey_length _ (State.readBytes_length _ _ _), rfl⟩

end Sys2Proof.Machine
end

section
/-! SUPPORT. The padding, functions applied block by block, the XAE rounds, and the cipher of many blocks
(spec/42_xae_cipher.md R160 to R167). -/

namespace Sys2Proof.Machine

/-! ### Padding (R160) -/

/-- XOR is associative and commutative, so the fold may run from either end. -/
theorem foldBytes_eq_foldr (buf : List Byte) : foldBytes buf = buf.foldr (fun x f => x ^^^ f) 0 :=
  List.foldl_eq_foldr

/-- The bytes that `pad` appends complete the last block. -/
theorem add_padCount_mod (len : Nat) {block : Nat} (h : 0 < block) : (len + padCount len block) % block = 0 := by
  have hrem : len % block < block := Nat.mod_lt _ h
  have hsum : len + (block - len % block) = block * (len / block + 1) := by
    have hdiv := Nat.div_add_mod len block
    rw [Nat.mul_succ]
    omega
  rw [padCount, Nat.add_mod_mod, hsum, Nat.mul_mod_right]

/-- Settles O52: the count reaches the next whole block, and the fold is the same from either end. -/
theorem padAppendsTheChecksum : Obligations.PadAppendsTheChecksum := by
  unfold Obligations.PadAppendsTheChecksum
  intro buf o block n
  have hpos : 0 < block := by cases o <;> decide
  exact ⟨padCount_lt buf.length hpos, add_padCount_mod buf.length hpos, by rw [← foldBytes_eq_foldr]; rfl⟩

/-! ### Block by block -/

theorem slice_append_left {x y : List Byte} {a n : Nat} (h : a + n ≤ x.length) :
    slice (x ++ y) a n = slice x a n := by
  rw [slice, slice, List.drop_append_of_le_length (by omega), List.take_append_of_le_length (by simp; omega)]

theorem slice_take {x : List Byte} {a n m : Nat} (h : a + n ≤ m) : slice (x.take m) a n = slice x a n := by
  rw [slice, slice, List.drop_take, List.take_take, Nat.min_eq_left (by omega)]

section
variable {size : Nat} {f g : List Byte → List Byte} (hf : ∀ y : List Byte, y.length = size → (f y).length = size)

/-- Block `b` lies in a sequence that holds it. -/
theorem slice_block_length {x : List Byte} {b : Nat} (hb : b < x.length / size) :
    (slice x (size * b) size).length = size := by
  refine slice_length _ _ _ ?_
  calc size * b + size = size * (b + 1) := (Nat.mul_succ size b).symm
    _ ≤ size * (x.length / size) := Nat.mul_le_mul_left _ hb
    _ ≤ x.length := Nat.mul_div_le _ _

/-- The blocks of a sequence of whole blocks, joined. -/
theorem flatMap_slices {x : List Byte} (hx : size ∣ x.length) :
    ((List.range (x.length / size)).flatMap fun b => slice x (size * b) size) = x := by
  have hrow : ∀ b < x.length / size, (slice x (size * b) size).length = size := fun b => slice_block_length
  have hlen := flatMap_length_of_rows (x.length / size) size (fun b => slice x (size * b) size) _ List.length_range
    fun b hb => hrow b (List.mem_range.mp hb)
  refine eq_of_getD (hlen.trans (Nat.div_mul_cancel hx)) fun q hq => ?_
  obtain ⟨hb, hj, he⟩ := row_place (hlen ▸ hq)
  rw [he, flatMap_getD_of_rows _ _ hrow hb hj, slice_getD _ _ _ hj, Nat.mul_comm]

include hf

/-- Block `b` of the result comes from block `b` alone. -/
theorem slice_mapBlocks {x : List Byte} {b : Nat} (hb : b < x.length / size) :
    slice (mapBlocks size f x) (size * b) size = f (slice x (size * b) size) := by
  rw [mapBlocks, List.flatMap_def, slice_flatten _ (by simpa using hb)]
  · simp [hb]
  · intro r hr
    obtain ⟨c, hc, rfl⟩ := List.mem_map.mp hr
    exact hf _ (slice_block_length (List.mem_range.mp hc))

theorem mapBlocks_length_of_dvd {x : List Byte} (hx : size ∣ x.length) : (mapBlocks size f x).length = x.length := by
  rw [mapBlocks_length f x hf, Nat.div_mul_cancel hx]

/-- Where one function undoes another on every block, it does so block by block on whole blocks. -/
theorem mapBlocks_undo (hgf : ∀ y : List Byte, y.length = size → g (f y) = y) {x : List Byte} (hx : size ∣ x.length) :
    mapBlocks size g (mapBlocks size f x) = x := by
  rw [mapBlocks, mapBlocks_length_of_dvd hf hx]
  refine (List.flatMap_congr fun b hb => ?_).trans (flatMap_slices hx)
  have hb : b < x.length / size := List.mem_range.mp hb
  rw [slice_mapBlocks hf hb, hgf _ (slice_block_length hb)]

end

/-! ### Rounds in order -/

/-- A fold over the numbers below `n` ends at the last of its states. -/
theorem foldl_range_of_states {α : Type} (f : α → Nat → α) (xs : Nat → α) (n : Nat)
    (h : ∀ i < n, xs (i + 1) = f (xs i) i) : (List.range n).foldl f (xs 0) = xs n := by
  induction n with
  | zero => rfl
  | succ n ih =>
    rw [List.range_succ, List.foldl_append, ih fun i hi => h i (by omega)]
    exact (h n (by omega)).symm

/-- Steps that each undo one step of a fold, taken in the reverse order, undo the fold. -/
theorem foldl_range_undo {α : Type} {P : α → Prop} {f g : α → Nat → α} {n : Nat}
    (hP : ∀ x i, i < n → P x → P (f x i)) (hgf : ∀ x i, i < n → P x → g (f x i) i = x) {x : α} (hx : P x) :
    (List.range n).foldl (fun y i => g y (n - 1 - i)) ((List.range n).foldl f x) = x := by
  induction n with
  | zero => rfl
  | succ n ih =>
    have hy : P ((List.range n).foldl f x) := foldl_range_keeps P f n x hx fun x i hi => hP x i (by omega)
    have hlast : (List.range (n + 1)).foldl f x = f ((List.range n).foldl f x) n := by
      rw [List.range_succ, List.foldl_append, List.foldl_cons, List.foldl_nil]
    rw [hlast, List.range_succ_eq_map, List.foldl_cons, Nat.add_sub_cancel, Nat.sub_zero, hgf _ n (by omega) hy,
      List.foldl_map]
    simp only [Nat.succ_eq_add_one, Nat.add_comm _ 1, ← Nat.sub_sub]
    exact ih (fun x i hi => hP x i (by omega)) fun x i hi => hgf x i (by omega)

/-- The inverse round undoes the forward round with the same key, step by step (R163). -/
theorem decRound_encRound {T : Tables} (hT : Invertible T) {x k : List Byte} (hx : x.length = 16) (hk : k.length = 16) :
    decRound T (encRound T x k) k = x := by
  have hsub : (substitute T.sboxC x).length = 4 * 4 := by rw [substitute_length, hx]
  rw [decRound, encRound, addBytes_cancel (by rw [mixColumns_length, hk]), hT.mix _ (shiftRows_length .fwd hsub)]
  exact (congrArg _ (shiftRows_reverse .fwd hsub)).trans (substitute_undo hT.sbox x)

/-- Settles O53: the four steps are the definition, and each step undoes its counterpart. -/
theorem inverseRoundUndoesRound : Obligations.InverseRoundUndoesRound := by
  unfold Obligations.InverseRoundUndoesRound
  exact fun T x k hx hk => ⟨rfl, fun hT => decRound_encRound hT hx hk⟩

/-- The 15 inverse rounds of a block undo its 15 forward rounds. -/
theorem decBlock_encBlock {T : Tables} (hT : Invertible T) {ks x : List Byte} (hk : ks.length = 240)
    (hx : x.length = 16) : decBlock T ks (encBlock T ks x) = x :=
  foldl_range_undo (P := fun x : List Byte => x.length = 16) (g := fun x i => decRound T x (cipherRoundKey ks i))
    (n := 15) (fun x _ hi _ => encRound_length T x (cipherRoundKey_length hk hi))
    (fun _ _ hi hx => decRound_encRound hT hx (cipherRoundKey_length hk hi)) hx

/-! ### The cipher of many blocks -/

theorem pad_whole_blocks (pt : List Byte) : 16 ∣ (pad pt 16).1.length := by
  rw [pad_length]
  exact Nat.dvd_of_mod_eq_zero (add_padCount_mod pt.length (by decide))

theorem pad_count_le (pt : List Byte) : (pad pt 16).2 ≤ 15 :=
  Nat.le_of_lt_succ (padCount_lt pt.length (by decide))

/-- What is left of the padded sequence without the bytes appended. -/
theorem pad_take (pt : List Byte) (block : Nat) :
    (pad pt block).1.take ((pad pt block).1.length - (pad pt block).2) = pt := by
  rw [pad_length, pad, Nat.add_sub_cancel, List.take_left]

section
variable (T : Tables) {ct : List Byte} (key : List Byte) {blocks : Nat} (h : ct.length = 16 * blocks + 1)
include h

theorem decryptedBlocks_length (ks : List Byte) :
    (mapBlocks 16 (decBlock T ks) (ct.take (16 * blocks))).length = 16 * blocks := by
  have htake : (ct.take (16 * blocks)).length = 16 * blocks := by rw [List.length_take]; omega
  rw [mapBlocks_length_of_dvd (fun _ hy => decBlock_length T ks hy) ⟨blocks, htake⟩, htake]

/-- Decryption of whole blocks and a marker byte: every block through the inverse rounds, without as many bytes at
the end as the marker counts (R165). -/
theorem xaeDecrypt_eq_take :
    xaeDecrypt T ct key =
      (mapBlocks 16 (decBlock T (expandCipherKey T key)) (ct.take (16 * blocks))).take
        (16 * blocks - (ct.getD (16 * blocks) 0).toNat) := by
  rw [xaeDecrypt, h, Nat.add_sub_cancel, decryptedBlocks_length T h]

theorem xaeDecrypt_length :
    (xaeDecrypt T ct key).length = 16 * blocks - (ct.getD (16 * blocks) 0).toNat := by
  rw [xaeDecrypt_eq_take T key h, List.length_take, decryptedBlocks_length T h, Nat.min_eq_left (Nat.sub_le _ _)]

/-- Byte `j` of block `b` of the plaintext comes from block `b` of the ciphertext alone. -/
theorem xaeDecrypt_getD {b j : Nat} (hb : b < blocks) (hj : j < 16)
    (hkeep : 16 * b + j < 16 * blocks - (ct.getD (16 * blocks) 0).toNat) :
    (xaeDecrypt T ct key).getD (16 * b + j) 0 =
      (decBlock T (expandCipherKey T key) (slice ct (16 * b) 16)).getD j 0 := by
  have htake : (ct.take (16 * blocks)).length / 16 = blocks := by rw [List.length_take]; omega
  rw [← slice_take (m := 16 * blocks) (by omega),
    ← slice_mapBlocks (fun _ hy => decBlock_length T _ hy) (by rwa [htake]), slice_getD _ _ _ hj,
    xaeDecrypt_eq_take T key h, List.getD_eq_getElem?_getD, List.getElem?_take_of_lt hkeep,
    List.getD_eq_getElem?_getD]

end

section
variable (T : Tables) (pt : List Byte) {key : List Byte} (hk : KeyLength key.length)
include hk

theorem encBlock_expandCipherKey_length {x : List Byte} (hx : x.length = 16) :
    (encBlock T (expandCipherKey T key) x).length = 16 :=
  encBlock_length T (expandCipherKey_length_of_keyLength T hk) hx

/-- The blocks of the ciphertext without its marker byte are as long as the padded plaintext. -/
theorem encryptedBlocks_length :
    (mapBlocks 16 (encBlock T (expandCipherKey T key)) (pad pt 16).1).length = (pad pt 16).1.length :=
  mapBlocks_length_of_dvd (fun _ hy => encBlock_expandCipherKey_length T hk hy) (pad_whole_blocks pt)

theorem xaeEncrypt_length_of_pad : (xaeEncrypt T pt key).length = (pad pt 16).1.length + 1 := by
  rw [xaeEncrypt, List.length_append, encryptedBlocks_length T pt hk, List.length_singleton]

theorem xaeEncrypt_length_of_keyLength : (xaeEncrypt T pt key).length = 16 * ((pt.length + 15) / 16) + 1 := by
  obtain ⟨-, hmin, hmax⟩ := (keyLength_iff _).mp hk
  exact xaeEncrypt_length T hmin (by omega)

/-- The byte after the blocks is the pad count (R164). -/
theorem xaeEncrypt_marker : (xaeEncrypt T pt key).getD (pad pt 16).1.length 0 = BitVec.ofNat 8 (pad pt 16).2 := by
  have hlen := encryptedBlocks_length T pt hk
  rw [xaeEncrypt, List.getD_append_right _ _ _ _ hlen.le, hlen, Nat.sub_self, List.getD_cons_zero]

/-- Block `b` of the ciphertext comes from block `b` of the padded plaintext alone. -/
theorem slice_xaeEncrypt {b : Nat} (hb : b < (pad pt 16).1.length / 16) :
    slice (xaeEncrypt T pt key) (16 * b) 16 =
      encBlock T (expandCipherKey T key) (slice (pad pt 16).1 (16 * b) 16) := by
  rw [xaeEncrypt, slice_append_left (by rw [encryptedBlocks_length T pt hk]; omega),
    slice_mapBlocks (fun _ hy => encBlock_expandCipherKey_length T hk hy) hb]

/-- Decryption undoes encryption under tables that meet R40 and R42 (R167). -/
theorem xaeDecrypt_xaeEncrypt (hT : Invertible T) : xaeDecrypt T (xaeEncrypt T pt key) key = pt := by
  have hlen : 16 * ((pad pt 16).1.length / 16) = (pad pt 16).1.length := Nat.mul_div_cancel' (pad_whole_blocks pt)
  have hmarker : (BitVec.ofNat 8 (pad pt 16).2).toNat = (pad pt 16).2 :=
    Nat.mod_eq_of_lt (Nat.lt_of_le_of_lt (pad_count_le pt) (by decide))
  have hblocks : (xaeEncrypt T pt key).take (pad pt 16).1.length =
      mapBlocks 16 (encBlock T (expandCipherKey T key)) (pad pt 16).1 :=
    List.take_left' (encryptedBlocks_length T pt hk)
  have hundo : mapBlocks 16 (decBlock T (expandCipherKey T key))
      (mapBlocks 16 (encBlock T (expandCipherKey T key)) (pad pt 16).1) = (pad pt 16).1 :=
    mapBlocks_undo (fun _ hy => encBlock_expandCipherKey_length T hk hy)
      (fun _ hy => decBlock_encBlock hT (expandCipherKey_length_of_keyLength T hk) hy) (pad_whole_blocks pt)
  rw [xaeDecrypt_eq_take T key (by rw [hlen, xaeEncrypt_length_of_pad T pt hk]), hlen, xaeEncrypt_marker T pt hk,
    hmarker, hblocks, hundo, pad_take]

end

/-- Settles O54: `xaeDecrypt_xaeEncrypt`; that the plaintext is not empty is not needed. -/
theorem decryptionUndoesEncryption : Obligations.DecryptionUndoesEncryption := by
  unfold Obligations.DecryptionUndoesEncryption
  exact fun T pt _ hT _ hk => xaeDecrypt_xaeEncrypt T pt hk hT

/-- Settles O55: each block alone, and the fold of its 15 rounds ends at the last of the states. -/
theorem ciphertextBlocks : Obligations.CiphertextBlocks := by
  unfold Obligations.CiphertextBlocks
  constructor
  · intro T pt key hk P L C KS
    refine ⟨xaeEncrypt_length_of_pad T pt hk, xaeEncrypt_length_of_keyLength T pt hk, pad_count_le pt,
      xaeEncrypt_marker T pt hk, fun b xs hb h0 hnext => ?_⟩
    have hblock : encBlock T KS (xs 0) = xs 15 := foldl_range_of_states _ xs 15 hnext
    rw [slice_xaeEncrypt T pt hk hb, ← h0, hblock]
  · intro T ct key blocks _ _ hct L KS _
    refine ⟨xaeDecrypt_length T key hct, fun b xs hb h0 hnext j hj hkeep => ?_⟩
    have hblock : decBlock T KS (xs 0) = xs 15 := foldl_range_of_states _ xs 15 hnext
    rw [xaeDecrypt_getD T key hct hb hj hkeep, ← h0, hblock]

end Sys2Proof.Machine
end

section
/-! SUPPORT. The commands XAEENCR, XAEDECR, XAEENC and XAEDEC complete (spec/42_xae_cipher.md R170 to R173). -/

namespace Sys2Proof.Machine

/-- Two input regions that end in MEM both fit (R67). -/
theorem Region.fits_pair {a m b n : Nat} (h : a + m ≤ 65536) (h' : b + n ≤ 65536) :
    ∀ r ∈ [(⟨a, m⟩ : Region), ⟨b, n⟩], r.fits = true :=
  List.forall_mem_cons.mpr ⟨Region.fits_of_le h, List.forall_mem_singleton.mpr (Region.fits_of_le h')⟩

/-- Settles O21: the regions fit, and each effect is its round. -/
theorem xaeRoundsComplete : Obligations.XaeRoundsComplete := by
  unfold Obligations.XaeRoundsComplete
  intro s p x k hsrc hkey hdst
  have hin := Region.fits_pair hsrc hkey
  constructor
  · have hcheck : checkInstr .xaeencr s = none :=
      checkInstr_eq_none rfl ⟨rfl, rfl, rfl, rfl, rfl⟩ hin (Region.fits_of_le hdst)
    obtain ⟨t, hexec, hsucc⟩ := exec_succeeds_toDst hcheck rfl
    exact ⟨t, _, hexec, hsucc, encRound_length _ _ (State.readKey_length _ _), rfl⟩
  · have hcheck : checkInstr .xaedecr s = none :=
      checkInstr_eq_none rfl ⟨rfl, rfl, rfl, rfl, rfl⟩ hin (Region.fits_of_le hdst)
    obtain ⟨t, hexec, hsucc⟩ := exec_succeeds_toDst hcheck rfl
    exact ⟨t, _, hexec, hsucc, decRound_length _ _ _, rfl⟩

/-- Settles O22: the checks pass, and the effect is the ciphertext of the bytes read. -/
theorem xaeencCompletes : Obligations.XaeencCompletes := by
  unfold Obligations.XaeencCompletes
  intro s p n N hk hn hsrc hkey hdst
  have hread : KeyLength (s.readKey p.klen.toNat).length := by rwa [State.readKey_length]
  have hcheck : checkInstr .xaeenc s = none :=
    checkInstr_eq_none rfl ⟨rfl, congrArg not (keySizeOk_of_keyLength hk), rfl, decide_eq_false hn, rfl⟩
      (Region.fits_pair hsrc hkey) (Region.fits_of_le hdst)
  obtain ⟨t, hexec, hsucc⟩ := exec_succeeds_toDst hcheck rfl
  refine ⟨t, _, hexec, hsucc, (xaeEncrypt_length_of_keyLength _ _ hread).trans ?_, rfl⟩
  rw [State.readSrc_length]
  rfl

theorem ciphertextSizeOk_iff (n : Nat) : ciphertextSizeOk n = true ↔ 17 ≤ n ∧ (n - 1) % 16 = 0 := by
  simp [ciphertextSizeOk]

/-- Settles O23: the checks pass, the marker byte among them, and the effect is the plaintext of the bytes read. -/
theorem xaedecCompletes : Obligations.XaedecCompletes := by
  unfold Obligations.XaedecCompletes
  intro s p n L hk hmin hwhole hsrc hkey hdst hL
  have hcheck : checkInstr .xaedec s = none := by
    refine check_eq_none.mpr ⟨⟨rfl, congrArg not (keySizeOk_of_keyLength hk), rfl, rfl,
      congrArg not ((ciphertextSizeOk_iff n).mpr ⟨hmin, hwhole⟩)⟩,
      ⟨Region.fits_pair hsrc hkey, Region.fits_of_le hdst⟩, fun a ha => ?_⟩
    obtain rfl : p.src.toNat + n - 1 = a := Option.some.inj ha
    exact hL
  obtain ⟨t, hexec, hsucc⟩ := exec_succeeds_toDst hcheck rfl
  obtain ⟨blocks, hblocks⟩ : 16 ∣ n - 1 := Nat.dvd_of_mod_eq_zero hwhole
  have hct : (s.readSrc n).length = 16 * blocks + 1 := by rw [State.readSrc_length]; omega
  have hmarker : ((s.readSrc n).getD (16 * blocks) 0).toNat = L := by
    rw [readSrc_getD s (by omega), ← hblocks, ← Nat.add_sub_assoc (by omega)]
  refine ⟨t, _, hexec, hsucc, (xaeDecrypt_length _ _ hct).trans ?_, rfl⟩
  rw [hmarker, hblocks]

end Sys2Proof.Machine
end

section
/-! SUPPORT. The decimal text of a number, the Miyaguchi-Preneel compression, and the digest as the last chaining value
(spec/43_xwh_hash.md R190 to R194). -/

namespace Sys2Proof.Machine

/-! ### The decimal text (R192) -/

theorem asciiDigit_toNat {d : Nat} (h : d < 10) : (asciiDigit d).toNat = 0x30 + d := by
  change (0x30 + d % 256) % 256 = 0x30 + d
  omega

theorem asciiDigit_ne_zero_digit {d : Nat} (h : d < 10) (h0 : d ≠ 0) : asciiDigit d ≠ 0x30 := by
  intro he
  have hd := asciiDigit_toNat h
  rw [he] at hd
  exact h0 (Nat.left_eq_add.mp hd)

/-- A relation between numbers and texts holds of every number and its decimal text when it holds of each single digit, and a
further digit keeps it after the text of a number that is not 0. -/
theorem decAscii_induction {P : Nat → List Byte → Prop} (digit : ∀ d < 10, P d [asciiDigit d])
    (snoc : ∀ n d l, n ≠ 0 → d < 10 → P n l → P (10 * n + d) (l ++ [asciiDigit d])) (n : Nat) : P n (decAscii n) := by
  have hfuel : ∀ fuel m, m < fuel → P m (decDigits fuel m) := by
    intro fuel
    induction fuel with
    | zero => exact fun m h => absurd h (Nat.not_lt_zero m)
    | succ fuel ih =>
      intro m h
      rw [decDigits]
      split
      next hm => exact digit m hm
      next hm =>
        have hmore := snoc (m / 10) (m % 10) _ (by omega) (Nat.mod_lt m (by omega)) (ih (m / 10) (by omega))
        rwa [Nat.div_add_mod] at hmore
  exact hfuel (n + 1) n (Nat.lt_succ_self n)

theorem decAscii_ne_nil (n : Nat) : decAscii n ≠ [] :=
  decAscii_induction (P := fun _ l => l ≠ []) (fun _ _ => List.cons_ne_nil _ _)
    (fun _ _ _ _ _ _ => List.append_ne_nil_of_right_ne_nil _ (List.cons_ne_nil _ _)) n

theorem decAscii_digits (n : Nat) : ∀ b ∈ decAscii n, 0x30 ≤ b.toNat ∧ b.toNat ≤ 0x39 := by
  have hdigit : ∀ d < 10, ∀ b ∈ [asciiDigit d], 0x30 ≤ b.toNat ∧ b.toNat ≤ 0x39 := by
    intro d hd b hb
    rw [List.mem_singleton.mp hb, asciiDigit_toNat hd]
    omega
  exact decAscii_induction (P := fun _ l => ∀ b ∈ l, 0x30 ≤ b.toNat ∧ b.toNat ≤ 0x39) hdigit
    (fun _ d _ _ hd ih => List.forall_mem_append.mpr ⟨ih, hdigit d hd⟩) n

/-- The text read back, most significant digit first. -/
theorem decAscii_value (n : Nat) : (decAscii n).foldl (fun v b => 10 * v + (b.toNat - 0x30)) 0 = n := by
  refine decAscii_induction (P := fun n l => l.foldl (fun v b => 10 * v + (b.toNat - 0x30)) 0 = n) ?_ ?_ n
  · intro d hd
    simp [asciiDigit_toNat hd]
  · intro n d l _ hd ih
    simp [ih, asciiDigit_toNat hd]

/-- No leading zero: a number that is not 0 starts with another digit. -/
theorem decAscii_leading_digit {n : Nat} (h : n ≠ 0) : ∃ b l, decAscii n = b :: l ∧ b ≠ 0x30 := by
  refine decAscii_induction (P := fun n t => n ≠ 0 → ∃ b l, t = b :: l ∧ b ≠ 0x30) ?_ ?_ n h
  · exact fun d hd h0 => ⟨asciiDigit d, [], rfl, asciiDigit_ne_zero_digit hd h0⟩
  · intro n d t hn _ ih _
    obtain ⟨b, l, rfl, hb⟩ := ih hn
    exact ⟨b, l ++ [asciiDigit d], rfl, hb⟩

/-- Settles O58: by the induction over the digits, each property from the single digits up. -/
theorem decAsciiIsTheDecimalText : Obligations.DecAsciiIsTheDecimalText := by
  unfold Obligations.DecAsciiIsTheDecimalText
  refine fun n => ⟨decAscii_ne_nil n, decAscii_digits n, decAscii_value n, ?_, fun hn => ?_⟩
  · rintro rfl
    rfl
  · obtain ⟨b, l, ht, hb⟩ := decAscii_leading_digit hn
    rwa [ht]

/-! ### The compression (R191) -/

/-- The rounds of a block end at the last of its states. -/
theorem hashBlock_of_states (T : Tables) (ks : List Byte) {C : Nat → List Byte}
    (h : ∀ r < 11, C (r + 1) = hashRound T (C r) (hashRoundKey ks r)) : hashBlock T ks (C 0) = C 11 :=
  foldl_range_of_states (fun x r => hashRound T x (hashRoundKey ks r)) C 11 h

/-- The feed-forward, byte by byte. -/
theorem compress_getD (T : Tables) {H B : List Byte} (hH : H.length = 64) (hB : B.length = 64) {i : Nat} (hi : i < 64) :
    (compress T H B).getD i 0 =
      B.getD i 0 ^^^ H.getD i 0 ^^^ (hashBlock T (expandHashKey T H) B).getD i 0 := by
  have hrounds : (hashBlock T (expandHashKey T H) B).length = 64 := hashBlock_length T (expandHashKey_length T hH) hB
  have hBH : (addBytes B H).length = 64 := by rw [addBytes_length, hB, hH, Nat.min_self]
  rw [compress, addBytes_getD (by omega) (by omega), addBytes_getD (by omega) (by omega)]

/-- Settles O60: the 11 rounds end at `C 11`, and the feed-forward adds the block and the chaining value. -/
theorem compressionRule : Obligations.CompressionRule := by
  unfold Obligations.CompressionRule
  intro T H B hH hB
  refine ⟨slice_expandHashKey_zero T hH, fun C hC hround => ⟨compress_length T hH hB, fun i hi => ?_⟩⟩
  have hlast : hashBlock T (expandHashKey T H) B = C 11 := by
    rw [← hC]
    exact hashBlock_of_states T (expandHashKey T H) hround
  rw [compress_getD T hH hB hi, hlast]

/-! ### The chained hash (R193, R194) -/

section
variable (T : Tables) (msg : List Byte)

theorem hashBuffer_length : (hashBuffer T msg).length = 64 + (decAscii msg.length).length + msg.length := by
  rw [hashBuffer, List.length_append, List.length_append, Vector.length_toList]

/-- R194's count of blocks. -/
theorem blockCount_eq : blockCount T msg = ((decAscii msg.length).length + msg.length + 63) / 64 := by
  rw [blockCount, paddedBuffer, pad_length, padCount, hashBuffer_length]
  omega

theorem blockCount_pos : 1 ≤ blockCount T msg := by
  have hdigits : 0 < (decAscii msg.length).length := List.length_pos_of_ne_nil (decAscii_ne_nil msg.length)
  rw [blockCount_eq]
  omega

/-- Padding only appends, so the padded buffer starts with the IV. -/
theorem slice_paddedBuffer_zero : slice (paddedBuffer T msg) 0 64 = T.ivH.toList := by
  have hiv : T.ivH.toList.length = 64 := T.ivH.length_toList
  rw [paddedBuffer, pad, hashBuffer, List.append_assoc, List.append_assoc, slice_append_left hiv.ge]
  exact List.take_of_length_le hiv.le

/-- The digest is the last of the chaining values. -/
theorem xwhHash_of_states {H : Nat → List Byte} (h0 : H 0 = T.ivH.toList)
    (h : ∀ i < blockCount T msg, H (i + 1) = compress T (H i) (slice (paddedBuffer T msg) (64 * (i + 1)) 64)) :
    xwhHash T msg = H (blockCount T msg) := by
  rw [xwhHash, slice_paddedBuffer_zero, ← h0]
  exact foldl_range_of_states _ H _ h

end

/-- Settles O59: the buffer starts with the IV, and the fold over the blocks ends at the last chaining value. -/
theorem digestIsTheLastChainingValue : Obligations.DigestIsTheLastChainingValue := by
  unfold Obligations.DigestIsTheLastChainingValue
  intro T msg buf P N
  exact ⟨blockCount_pos T msg, blockCount_eq T msg, slice_paddedBuffer_zero T msg, xwhHash_length T msg,
    fun H h0 h => xwhHash_of_states T msg h0 fun i hi => h (i + 1) (Nat.succ_pos i) hi⟩

end Sys2Proof.Machine
end

section
/-! SUPPORT. The commands XWHRND, XWHCMP and XWHHASH complete (spec/43_xwh_hash.md R200 to R202). -/

namespace Sys2Proof.Machine

/-- Settles O24: the regions fit, and the effects are one round and one compression. -/
theorem xwhRoundAndCompressionComplete : Obligations.XwhRoundAndCompressionComplete := by
  unfold Obligations.XwhRoundAndCompressionComplete
  intro s p x k hsrc hkey hdst
  have hin := Region.fits_pair hsrc hkey
  constructor
  · have hcheck : checkInstr .xwhrnd s = none :=
      checkInstr_eq_none rfl ⟨rfl, rfl, rfl, rfl, rfl⟩ hin (Region.fits_of_le hdst)
    obtain ⟨t, hexec, hsucc⟩ := exec_succeeds_toDst hcheck rfl
    exact ⟨t, _, hexec, hsucc, hashRound_length _ _ (State.readKey_length _ _), rfl⟩
  · have hcheck : checkInstr .xwhcmp s = none :=
      checkInstr_eq_none rfl ⟨rfl, rfl, rfl, rfl, rfl⟩ hin (Region.fits_of_le hdst)
    obtain ⟨t, hexec, hsucc⟩ := exec_succeeds_toDst hcheck rfl
    exact ⟨t, _, hexec, hsucc, compress_length _ (State.readKey_length _ _) (State.readSrc_length _ _), rfl⟩

/-- Settles O25: a message of no bytes fits at any SRC, and the effect is the digest of the bytes read. -/
theorem xwhhashCompletes : Obligations.XwhhashCompletes := by
  unfold Obligations.XwhhashCompletes
  intro s p n hsrc hdst
  have hcheck : checkInstr .xwhhash s = none :=
    checkInstr_eq_none rfl ⟨rfl, rfl, rfl, rfl, rfl⟩
      (List.forall_mem_singleton.mpr ((Region.fits_iff _).mpr hsrc)) (Region.fits_of_le hdst)
  obtain ⟨t, hexec, hsucc⟩ := exec_succeeds_toDst hcheck rfl
  exact ⟨t, _, hexec, hsucc, xwhHash_length _ _, rfl⟩

end Sys2Proof.Machine
end

section
/-! SUPPORT. How a completion reports errors: which of R211's errors is reported, what an error changes, and what a success
leaves unchanged (spec/60_exceptions.md R211 to R215). -/

namespace Sys2Proof.Machine

/-! ### The lowest error that applies (R212) -/

/-- Of the errors from code `n` on, `o` is the lowest that `P` holds of; it is `none` when `P` holds of none of them. -/
def LowestFrom (n : Nat) (P : ErrorCode → Prop) : Option ErrorCode → Prop
  | none => ∀ e, n ≤ e.code.toNat → ¬ P e
  | some c => n ≤ c.code.toNat ∧ P c ∧ ∀ e, n ≤ e.code.toNat → e.code.toNat < c.code.toNat → ¬ P e

theorem ErrorCode.eq_of_code_toNat {c e : ErrorCode} (h : c.code.toNat = e.code.toNat) : c = e :=
  ErrorCode.code_injective (BitVec.eq_of_toNat_eq h)

section
variable {P : ErrorCode → Prop} {o : Option ErrorCode}

theorem LowestFrom.found {e : ErrorCode} (he : P e) : LowestFrom e.code.toNat P (some e) :=
  ⟨le_rfl, he, fun _ hle hlt => absurd hle (Nat.not_le.mpr hlt)⟩

/-- An error that does not apply is passed over. -/
theorem LowestFrom.skip {e : ErrorCode} (he : ¬ P e) (h : LowestFrom (e.code.toNat + 1) P o) :
    LowestFrom e.code.toNat P o := by
  have above {e' : ErrorCode} (hle : e.code.toNat ≤ e'.code.toNat) (hP : P e') : e.code.toNat + 1 ≤ e'.code.toNat :=
    Nat.lt_of_le_of_ne hle fun hcode => he (ErrorCode.eq_of_code_toNat hcode ▸ hP)
  cases o with
  | none => exact fun e' hle hP => h e' (above hle hP) hP
  | some d =>
    obtain ⟨hd, hPd, hmin⟩ := h
    exact ⟨Nat.le_of_succ_le hd, hPd, fun e' hle hlt hP => hmin e' (above hle hP) hlt hP⟩

/-- One check of R212: it reports its error, or the search goes on from the next code. -/
theorem LowestFrom.ite {c : Prop} [Decidable c] {e : ErrorCode} (he : P e ↔ c)
    (ho : LowestFrom (e.code.toNat + 1) P o) : LowestFrom e.code.toNat P (if c then some e else o) := by
  split
  · next hc => exact .found (he.mpr hc)
  · next hc => exact .skip (mt he.mp hc) ho

theorem LowestFrom.of_none_below {n : Nat} (hbelow : ∀ e, e.code.toNat < n → ¬ P e) (h : LowestFrom n P o) :
    LowestFrom 0 P o := by
  cases o with
  | none => exact fun e _ hP => h e (Nat.le_of_not_lt fun hlt => hbelow e hlt hP) hP
  | some d =>
    obtain ⟨-, hPd, hmin⟩ := h
    exact ⟨Nat.zero_le _, hPd, fun e _ hlt hP => hmin e (Nat.le_of_not_lt fun hn => hbelow e hn hP) hlt hP⟩

/-- The value of ERRCODE: an error's code, or 0 for none (R211). -/
def reportedCode (o : Option ErrorCode) : Byte := (o.map ErrorCode.code).getD 0

theorem LowestFrom.reportedCode_eq_zero_iff (h : LowestFrom 0 P o) : reportedCode o = 0 ↔ ∀ e, ¬ P e := by
  cases o with
  | none => exact iff_of_true rfl fun e => h e (Nat.zero_le _)
  | some c => exact iff_of_false c.code_ne_zero fun hnone => hnone c h.2.1

theorem LowestFrom.reportedCode_eq_code_iff (h : LowestFrom 0 P o) (e : ErrorCode) :
    reportedCode o = e.code ↔ P e ∧ ∀ e', e'.code.toNat < e.code.toNat → ¬ P e' := by
  cases o with
  | none => exact iff_of_false e.code_ne_zero.symm fun he => h e (Nat.zero_le _) he.1
  | some c =>
    obtain ⟨-, hP, hmin⟩ := h
    constructor
    · intro hc
      obtain rfl : c = e := ErrorCode.code_injective hc
      exact ⟨hP, fun e' => hmin e' (Nat.zero_le _)⟩
    · rintro ⟨hPe, hmine⟩
      have hce : ¬ c.code.toNat < e.code.toNat := fun hlt => hmine c hlt hP
      have hec : ¬ e.code.toNat < c.code.toNat := fun hlt => hmin e (Nat.zero_le _) hlt hPe
      exact congrArg ErrorCode.code (ErrorCode.eq_of_code_toNat (Nat.le_antisymm (Nat.not_lt.mp hec) (Nat.not_lt.mp hce)))

end

/-! ### Each check is its cause in R211 -/

section
variable (i : Instr) (s : State)

theorem errorApplies_badSelect_iff :
    ErrorApplies i s .badSelect ↔ (requirements i s.snapshot).badSelect = true := by
  cases i with
  | mixcol o t m => simp [ErrorApplies, requirements]
  | _ => exact iff_of_false (by simp [ErrorApplies]) Bool.false_ne_true

theorem keySizeOk_iff_keyLength (n : Nat) : keySizeOk n = true ↔ KeyLength n :=
  (keySizeOk_iff n).trans (keyLength_iff n).symm

theorem errorApplies_keySize_iff :
    ErrorApplies i s .keySize ↔ (requirements i s.snapshot).badKeySize = true := by
  have hsize : s.snapshot.klen.toNat ∉ [4, 8, 12, 16, 20, 24, 28, 32] ↔ (!keySizeOk s.snapshot.klenBytes) = true := by
    rw [Bool.not_eq_true', ← Bool.not_eq_true, keySizeOk_iff_keyLength]
    rfl
  simp only [ErrorApplies, hsize]
  cases i with
  | xkeyc | xaeenc | xaedec => simp [requirements]
  | _ => exact iff_of_false (by simp) Bool.false_ne_true

theorem len_eq_zero_iff (p : Snapshot) : p.len.toNat = 0 ↔ decide (p.lenBytes = 0) = true := decide_eq_true_iff.symm

theorem errorApplies_length_iff :
    ErrorApplies i s .length ↔ (requirements i s.snapshot).zeroLength = true := by
  simp only [ErrorApplies, len_eq_zero_iff]
  cases i with
  | subst | rotrow | addb | addbt => simp [requirements]
  | _ => exact iff_of_false (by simp) Bool.false_ne_true

theorem errorApplies_emptyInput_iff :
    ErrorApplies i s .emptyInput ↔ (requirements i s.snapshot).emptyInput = true := by
  simp only [ErrorApplies, len_eq_zero_iff]
  cases i with
  | xaeenc => simp [requirements]
  | _ => exact iff_of_false (by simp) Bool.false_ne_true

theorem errorApplies_ctSize_iff :
    ErrorApplies i s .ctSize ↔ (requirements i s.snapshot).badCiphertextSize = true := by
  have hsize : (s.snapshot.len.toNat < 17 ∨ (s.snapshot.len.toNat - 1) % 16 ≠ 0) ↔
      (!ciphertextSizeOk s.snapshot.lenBytes) = true := by
    rw [Bool.not_eq_true', ← Bool.not_eq_true, ciphertextSizeOk_iff, Snapshot.lenBytes]
    omega
  simp only [ErrorApplies, hsize]
  cases i with
  | xaedec => simp [requirements]
  | _ => exact iff_of_false (by simp) Bool.false_ne_true

theorem errorApplies_range_iff : ErrorApplies i s .range ↔
    (!((requirements i s.snapshot).inputs.all Region.fits && (requirements i s.snapshot).output.fits)) = true := by
  obtain ⟨hin, hout⟩ := requirements_regions i s.snapshot
  have hfits (r : Region) : r.Fits ↔ r.fits = true := r.fits_iff.symm
  simp [ErrorApplies, hin, hout, hfits, or_and_right, exists_or]

/-- Only XAEDEC has a byte that must be a pad marker, the last of its ciphertext (R173). -/
theorem errorApplies_padMarker_iff : ErrorApplies i s .padMarker ↔
    ∃ a, (requirements i s.snapshot).marker = some a ∧ 15 < (s.byteAt a).toNat := by
  cases i with
  | xaedec => simp [ErrorApplies, requirements, Snapshot.lenBytes]
  | _ => exact iff_of_false (by simp [ErrorApplies]) (by simp [requirements])

/-- The checks of a command find the lowest error that applies to it (R212). -/
theorem checkInstr_lowest : LowestFrom 0 (ErrorApplies i s) (checkInstr i s) := by
  have hundecoded (e : ErrorCode) (he : e.code.toNat < ErrorCode.badSelect.code.toNat) : ¬ ErrorApplies i s e := by
    cases e with
    | illegalOpcode | reservedField => exact id
    | _ => exact absurd he (by decide)
  have hlast : LowestFrom (ErrorCode.padMarker.code.toNat + 1) (ErrorApplies i s) none :=
    fun e he => absurd e.code_le (Nat.not_le.mpr he)
  refine .of_none_below hundecoded <|
    .ite (errorApplies_badSelect_iff i s) <| .ite (errorApplies_keySize_iff i s) <|
    .ite (errorApplies_length_iff i s) <| .ite (errorApplies_emptyInput_iff i s) <|
    .ite (errorApplies_ctSize_iff i s) <| .ite (errorApplies_range_iff i s) ?_
  have hmarker := errorApplies_padMarker_iff i s
  split
  · next hm => exact .skip (by simp [hmarker, hm]) hlast
  · next a hm =>
    split
    · next ha => exact .skip (by simpa [hmarker, hm] using ha) hlast
    · next ha => exact .found (hmarker.mpr ⟨a, hm, Nat.lt_of_not_le ha⟩)

end

/-! ### The completion of the latched word -/

theorem wordErrorApplies_of_decode_error {s : State} {d : DecodeError} (h : decode s.snapshot.cmd = .error d) :
    WordErrorApplies s = (· = errorOfDecode d) := by
  funext e
  simp only [WordErrorApplies, h]

theorem wordErrorApplies_of_decode_ok {s : State} {i : Instr} (h : decode s.snapshot.cmd = .ok i) :
    WordErrorApplies s = ErrorApplies i s := by
  funext e
  simp only [WordErrorApplies, h]

/-- A completion reports the lowest error that applies to the latched word (R88, R212). -/
theorem completion_reports_lowest {s t : State} (h : completion s = .next t) :
    ∃ o, LowestFrom 0 (WordErrorApplies s) o ∧ t.errcode = reportedCode o := by
  rcases completion_next h with ⟨c, ⟨d, hd, rfl⟩ | ⟨i, hi, hc⟩, rfl⟩ | ⟨i, hi, hc, rfl⟩
  · refine ⟨some (errorOfDecode d), ?_, rfl⟩
    rw [wordErrorApplies_of_decode_error hd]
    exact ⟨Nat.zero_le _, rfl, fun e _ hlt he => absurd hlt (he ▸ Nat.lt_irrefl _)⟩
  · refine ⟨some c, ?_, rfl⟩
    rw [wordErrorApplies_of_decode_ok hi, ← hc]
    exact checkInstr_lowest i s
  · refine ⟨none, ?_, rfl⟩
    rw [wordErrorApplies_of_decode_ok hi, ← hc]
    exact checkInstr_lowest i s

/-- Settles O10: the codes by their numbers; a completion reports the lowest error that applies, which its code determines. -/
theorem lowestErrorIsReported : Obligations.LowestErrorIsReported := by
  unfold Obligations.LowestErrorIsReported
  refine ⟨⟨rfl, rfl, rfl, rfl, rfl, rfl, rfl, rfl, rfl⟩, fun s t h => ?_⟩
  obtain ⟨o, ho, hcode⟩ := completion_reports_lowest h
  rw [hcode]
  exact ⟨ho.reportedCode_eq_zero_iff, ho.reportedCode_eq_code_iff⟩

/-- Settles O8: a completion whose code is not 0 is one with an error, which writes these fields alone. -/
theorem errorCompletionIsPrecise : Obligations.ErrorCompletionIsPrecise := by
  unfold Obligations.ErrorCompletionIsPrecise
  intro s t h hcode
  rcases completion_next h with ⟨c, -, rfl⟩ | ⟨i, -, -, rfl⟩
  · rfl
  · exact absurd (State.completeOk_errcode s _) hcode

/-- An output region that has bytes starts at DST (R213). -/
theorem outputRegion_base (i : Instr) (p : Snapshot) :
    (outputRegion i p).n = 0 ∨ (outputRegion i p).base = p.dst.toNat := by
  cases i with
  | nop | gfmul => exact .inl rfl
  | shrows o | mixcol o => cases o <;> exact .inr rfl
  | _ => exact .inr rfl

/-- A command ends with an error, or with its effect when its checks pass (R95). -/
theorem exec_next {i : Instr} {s t : State} (h : exec i s = .next t) :
    (∃ c : ErrorCode, t = s.completeError c.code) ∨
      (checkInstr i s = none ∧ t = s.completeOk (effectOf Config.tables i s)) := by
  rcases exec_cases i s with ⟨c, -, he⟩ | ⟨hc, he⟩
  · exact .inl ⟨c, by injection h.symm.trans he⟩
  · exact .inr ⟨hc, by injection h.symm.trans he⟩

/-- Settles O9: a completion with code 0 writes MEM inside the output region, and beside it only RESULT, OUTLEN, ERRCODE, BUSY
and DONE. -/
theorem successFrame : Obligations.SuccessFrame := by
  unfold Obligations.SuccessFrame
  intro i s t h hcode
  rcases exec_cases i s with ⟨c, -, he⟩ | ⟨hc, he⟩ <;> rw [he] at h <;> injection h with h <;> subst h
  · exact absurd hcode c.code_ne_zero
  · refine ⟨rfl, rfl, rfl, completeOk_sameBeside s _, outputRegion_base i _, fun a ha => ?_⟩
    by_contra hne
    exact ha (completeOk_byteAt_ne _ hc hne)

end Sys2Proof.Machine
end

section
/-! SUPPORT. What raises and clears the IRQ output, and the accesses that reach nothing: bus errors and the locked window
(spec/60_exceptions.md R217 to R220, spec/20_memory.md R62 to R66). -/

namespace Sys2Proof.Machine

/-! ### IRQ -/

theorem State.irq_of_not_done {s : State} (h : s.done = false) : s.irq = false := by
  rw [State.irq, h, Bool.and_false]

/-- Of the register writes only a CTRL write with bit 0 set raises IE (R31). -/
theorem writeReg_raises_ie {s : State} {r : Reg} {v : Word} (hs : s.ie = false) (ht : (s.writeReg r v).ie = true) :
    r = .ctrl ∧ v.getLsbD 0 = true := by
  cases r with
  | ctrl =>
    rcases (v.getLsbD 1).eq_false_or_eq_true with hv | hv
    · rw [writeReg_ctrl_of_srst s hv, s.resetAction_cleared.ie] at ht
      exact absurd ht Bool.false_ne_true
    · rw [writeReg_ctrl_of_not_srst s hv] at ht
      exact ⟨rfl, ht⟩
  | cmd =>
    rcases s.busy.eq_false_or_eq_true with hb | hb
    · rw [writeReg_cmd_of_busy v hb] at ht
      exact absurd (hs.symm.trans ht) Bool.false_ne_true
    · rw [writeReg_cmd_of_idle v hb] at ht
      exact absurd (hs.symm.trans ht) Bool.false_ne_true
  | _ => exact absurd (hs.symm.trans ht) Bool.false_ne_true

/-- Only a CTRL write with bit 0 set raises IE (R31). -/
theorem step_raises_ie {s t : State} (h : step s = .next t) (hs : s.ie = false) (ht : t.ie = true) :
    ∃ v, WritesReg s.nextMove .ctrl v ∧ v.getLsbD 0 = true := by
  have he := step_effect h
  generalize hm : s.nextMove = m at he ⊢
  cases he with
  | access a u hu r =>
    cases hu with
    | regWrite r v ha =>
      obtain ⟨rfl, hv⟩ := writeReg_raises_ie (s := s.dequeued) hs ht
      exact ⟨v, congrArg Move.access ha, hv⟩
    | _ => exact absurd (hs.symm.trans ht) Bool.false_ne_true
  | hardReset => exact absurd ((State.resetAction_cleared _).ie.symm.trans ht) Bool.false_ne_true
  | powerOn => exact absurd ht Bool.false_ne_true
  | _ => exact absurd (hs.symm.trans ht) Bool.false_ne_true

/-- A completion keeps IE (R95). -/
theorem ie_of_completion {s t : State} (hm : s.nextMove = .engine) (hb : s.busy = true) (h : step s = .next t) :
    t.ie = s.ie := by
  rcases step_of_completion hm hb h with ⟨c, -, rfl⟩ | ⟨i, -, -, rfl⟩ <;> rfl

/-- Settles O44: IRQ is IE and DONE, so it falls with DONE, and it rises when a completion sets DONE under IE or a CTRL write
sets IE under DONE. -/
theorem irqRisesAndFalls : Obligations.IrqRisesAndFalls := by
  unfold Obligations.IrqRisesAndFalls
  refine ⟨State.irq_iff, fun s t h => ?_⟩
  obtain ⟨hcompletion, hlaunch, hstatus, hreset, honly, -⟩ := doneAndErrcodeLifecycle s t h
  have hfalls : (∃ v, WritesReg s.nextMove .status v ∧ v.getLsbD 1 = true) ∨
      (s.busy = false ∧ ∃ v, WritesReg s.nextMove .cmd v) ∨ Resets s.nextMove → t.done = false := by
    rintro (⟨v, hw, hv⟩ | ⟨hb, v, hw⟩ | hr)
    · exact hstatus v hw hv
    · exact (hlaunch v hw hb).1
    · exact (hreset hr).1
  refine ⟨fun hcause => State.irq_of_not_done (hfalls hcause), fun hm hb hie => ?_, fun v hw hsrst hv hd => ?_,
    fun hs ht => ?_⟩
  · exact t.irq_iff.mpr ⟨(ie_of_completion hm hb h).trans hie, hcompletion hm hb⟩
  · rw [step_of_writesReg hw h, writeReg_ctrl_of_not_srst _ hsrst]
    exact (State.irq_iff _).mpr ⟨hv, hd⟩
  · obtain ⟨hie, hdone⟩ := t.irq_iff.mp ht
    rcases s.done.eq_false_or_eq_true with hd | hd
    · have hlow : s.ie = false := by rwa [State.irq, hd, Bool.and_true] at hs
      exact .inr ⟨hd, step_raises_ie h hlow hie⟩
    · rcases honly (by rw [hd, hdone]; decide) with ⟨hm, hb⟩ | hl | hw | hr
      · exact .inl ⟨hm, hb, (ie_of_completion hm hb h).symm.trans hie⟩
      · exact absurd ((hfalls (.inr (.inl hl))).symm.trans hdone) Bool.false_ne_true
      · exact absurd ((hfalls (.inl hw)).symm.trans hdone) Bool.false_ne_true
      · exact absurd ((hfalls (.inr (.inr hr))).symm.trans hdone) Bool.false_ne_true

/-! ### Bus errors and the locked window -/

/-- An access that reaches neither a register nor MEM is a bus error and leaves the state (R62, R218). -/
theorem accessAt_busError (s : State) {a : BusAccess} (hreg : ¬ ReachesReg a) (hmem : ¬ ReachesMem a) :
    s.accessAt a = (s, .busError) := by
  rcases accessAt_cases s a with ⟨hr, -⟩ | ⟨hm, -⟩ | ⟨-, -, h⟩
  · exact absurd hr hreg
  · exact absurd hm hmem
  · exact h

/-- Settles O31: such an access reaches neither a register nor MEM. -/
theorem busErrorsChangeNothing : Obligations.BusErrorsChangeNothing := by
  unfold Obligations.BusErrorsChangeNothing
  intro s a rest h hbad
  have hreg : ¬ ReachesReg a := by
    rintro ⟨hblock, hsize, haligned⟩
    rcases hbad with ⟨-, hz | ho⟩ | ⟨hlo, -⟩ | ⟨hlo, -⟩
    · exact hz hsize
    · exact ho haligned
    · omega
    · omega
  have hmem : ¬ ReachesMem a := by
    rintro ⟨hwindow, -, haligned⟩
    rcases hbad with ⟨hhi, -⟩ | ⟨-, hhi⟩ | ⟨-, ho⟩
    · omega
    · omega
    · exact ho haligned
  rw [step_of_agenda h, State.hostAccess, accessAt_busError _ hreg hmem]
  rfl

/-- What a window access does while BUSY = 1: it sets LOCKV, and a read returns 0 (R66, R217). -/
theorem accessMem_locked {s : State} (o : Nat) (z : AccessSize) (h : s.busy = true) :
    s.accessMem o z .read = ({ s with lockv := true }, .data 0) ∧
      ∀ v, s.accessMem o z (.write v) = ({ s with lockv := true }, .okay) := by
  simp only [State.accessMem, h, if_true, implies_true, and_self]

/-- Settles O32: an aligned window access reaches MEM, which is locked. -/
theorem windowIsLockedWhileBusy : Obligations.WindowIsLockedWhileBusy := by
  unfold Obligations.WindowIsLockedWhileBusy
  intro s a rest h hb hwindow haligned
  obtain ⟨hread, hwrite⟩ := accessMem_locked (s := { s with agenda := rest }) (a.offset.toNat - 0x10000) a.size hb
  rw [step_of_agenda h, State.hostAccess, accessAt_mem _ (BusAccess.inside hwindow haligned)]
  cases a.op with
  | read => rw [hread]; rfl
  | write v => rw [hwrite]; rfl

end Sys2Proof.Machine
end

section
/-! SUPPORT. What a reset leaves of the registers, of MEM and of a running command, and that a write of an argument
register or of CTRL.IE commutes with the completion of the running command (spec/70_reset_and_hazards.md R240 to R244, R249). -/

namespace Sys2Proof.Machine

/-! ### The reset action, case by case -/

/-- A word that fails its checks is not one whose command passes them. -/
theorem Fails.check_ne_none {s : State} {c : ErrorCode} {i : Instr} (hf : Fails s c)
    (hi : decode s.snapshot.cmd = .ok i) : checkInstr i s ≠ none := by
  rcases hf with ⟨d, hd, -⟩ | ⟨j, hj, hc⟩
  · rw [hi] at hd
    cases hd
  · rw [hi] at hj
    cases hj
    rw [hc]
    exact Option.some_ne_none c

/-- A reset with no command running clears the registers alone (R243). -/
theorem resetAction_of_idle {s : State} (hb : s.busy = false) : s.resetAction = s.clearRegisters := by
  rcases resetAction_cases s with ⟨-, h⟩ | ⟨i, hbusy, -⟩
  · exact h
  · exact absurd (hb.symm.trans hbusy) Bool.false_ne_true

/-- A reset that aborts a command whose checks would have failed clears the registers alone (R242). -/
theorem resetAction_of_fails {s : State} {c : ErrorCode} (hf : Fails s c) : s.resetAction = s.clearRegisters := by
  rcases resetAction_cases s with ⟨-, h⟩ | ⟨i, -, hi, hc, -⟩
  · exact h
  · exact absurd hc (hf.check_ne_none hi)

/-- A reset that aborts a command whose checks would have passed also draws the bytes of its output region (R242). -/
theorem resetAction_of_passes {s : State} {i : Instr} (hb : s.busy = true) (hi : decode s.snapshot.cmd = .ok i)
    (hc : checkInstr i s = none) :
    s.resetAction = { s.clearRegisters with
      mem := Memory.writeBytes s.mem (outputRegion i s.snapshot).base (abortBytes s.aborts (outputRegion i s.snapshot))
      aborts := s.aborts + 1 } := by
  simp only [State.resetAction, State.abortRegion, hb, hi, hc, if_true, (requirements_regions i s.snapshot).2]

theorem abortBytes_getD (k : Nat) (r : Region) {i : Nat} (h : i < r.n) :
    (abortBytes k r).getD i 0 = Config.abortByte k (r.base + i) := by
  simp [abortBytes, h]

/-- An abort keeps every MEM byte outside the output region, and leaves the free byte of the abort inside (R242). -/
theorem resetAction_byteAt_of_passes {s : State} {i : Instr} (hb : s.busy = true) (hi : decode s.snapshot.cmd = .ok i)
    (hc : checkInstr i s = none) (a : Nat) :
    (¬ (outputRegion i s.snapshot).Has a → s.resetAction.byteAt a = s.byteAt a) ∧
      ((outputRegion i s.snapshot).Has a → s.resetAction.byteAt a = Config.abortByte s.aborts a) := by
  have hr := resetAction_of_passes hb hi hc
  have hm := congrArg State.mem hr
  have hp := congrArg State.powerOns hr
  constructor
  · intro ha
    refine State.byteAt_writeBytes_outside hm hp ?_
    rw [abortBytes_length]
    unfold Region.Has at ha
    omega
  · rintro ⟨hlo, hhi⟩
    obtain ⟨k, rfl⟩ := Nat.exists_eq_add_of_le hlo
    have hk : k < (outputRegion i s.snapshot).n := by omega
    rw [State.byteAt_writeBytes_inside hm (by rwa [abortBytes_length]), abortBytes_getD _ _ hk]

/-! ### The step of a reset -/

/-- What a reset does does not depend on the moves to come. -/
theorem resetAction_setAgenda (s : State) (ms : List Move) :
    State.resetAction { s with agenda := ms } = { s.resetAction with agenda := ms } := by
  have hregion : State.abortRegion { s with agenda := ms } = s.abortRegion := rfl
  simp only [State.resetAction, hregion]
  cases s.abortRegion <;> rfl

/-- A reset that is no power-on is the reset action, beside the agenda and the response to a CTRL write (R240). -/
theorem step_of_reset {s t : State} (hr : Resets s.nextMove) (hp : s.nextMove ≠ .powerOn) (h : step s = .next t) :
    t = { s.resetAction with agenda := s.agenda.tail, responses := t.responses } := by
  rcases hr with hm | hm | ⟨v, hw, hv⟩
  · rw [step_eq, hm] at h
    injection h with h
    rw [← h, resetAction_setAgenda]
  · exact absurd hm hp
  · rw [step_of_writesReg hw h, writeReg_ctrl_of_srst _ hv, State.dequeued, resetAction_setAgenda]
    rfl

theorem State.Cleared.snapshot {t : State} (h : t.Cleared) : t.snapshot = Snapshot.empty :=
  congrArg State.snapshot h.symm

theorem State.Cleared.irq {t : State} (h : t.Cleared) : t.irq = false := State.irq_of_not_done h.done

/-- The turn of an idle engine holds the state (R229). -/
theorem engineTurn_of_idle {s : State} (hb : s.busy = false) : engineTurn s = .next s := by
  simp only [engineTurn, hb, Bool.false_eq_true, if_false]

/-- Settles O29: a reset of any source clears the registers and the snapshot, which makes the engine idle, and a CMD write
to an idle XCORE launches. -/
theorem resetSetsEveryRegister : Obligations.ResetSetsEveryRegister := by
  unfold Obligations.ResetSetsEveryRegister
  refine ⟨Snapshot.empty, fun s hr => ?_⟩
  obtain ⟨t, ht⟩ := everyStepAnswers.1 s
  have hc := cleared_of_resets hr ht
  have hread : ∀ r : Reg, t.readReg r = if r = .id then 0x58434F01 else 0 := by
    intro r
    split
    · next hid => rw [hid]; rfl
    · next hid => exact hc.readReg hid
  have hlaunch : ∀ v, t.hostAccess ⟨0x004, .word, .write v⟩ = (t.launch v).respond .okay := fun v =>
    (hostAccess_write_reg t .cmd v).trans (by rw [writeReg_cmd_of_idle v hc.busy])
  exact ⟨t, ht, hread, hc.irq, hc.busy, hc.done, hc.err, hc.drop, hc.lockv, hc.errcode, hc.ie, hc.snapshot,
    engineTurn_of_idle hc.busy, hlaunch⟩

/-- Settles O37: with no command running the reset action clears the registers alone, and after power-on no MEM byte has
been written. -/
theorem resetAndPowerOnMem : Obligations.ResetAndPowerOnMem := by
  unfold Obligations.ResetAndPowerOnMem
  intro s t h
  constructor
  · intro hr hp hb
    rw [step_of_reset hr hp h, resetAction_of_idle hb]
    exact ⟨rfl, fun _ => rfl⟩
  · intro hm a
    rw [step_eq, hm] at h
    injection h with h
    rw [← h]
    rfl

/-- Settles O36: the reset action decides by the checks that the completion makes, on the same snapshot and MEM. -/
theorem resetAbortsTheCommand : Obligations.ResetAbortsTheCommand := by
  unfold Obligations.ResetAbortsTheCommand
  intro s t u hr hp hb h hu
  have hc := cleared_of_resets hr h
  have ht := step_of_reset hr hp h
  refine ⟨hc.busy, hc.done, hc.err, hc.result, hc.outlen, ?_⟩
  rcases completion_next hu with ⟨c, hf, rfl⟩ | ⟨i, hi, hpass, rfl⟩
  · refine ⟨fun _ => ?_, fun hok => absurd hok c.code_ne_zero⟩
    rw [ht, resetAction_of_fails hf]
    rfl
  · have hbyte : ∀ a, t.byteAt a = s.resetAction.byteAt a := fun a => by rw [ht]; rfl
    refine ⟨fun hne => absurd rfl hne, fun _ => ⟨i, hi, fun a ha => ?_, fun a ha => ?_⟩⟩
    · exact (hbyte a).trans ((resetAction_byteAt_of_passes hb hi hpass a).1 ha)
    · exact (hbyte a).trans ((resetAction_byteAt_of_passes hb hi hpass a).2 ha)

/-! ### What the completion reads -/

/-- Two states agree on all that a completion reads: the launch snapshot and the bytes of MEM (R39, R95). -/
structure SameInputs (s t : State) : Prop where
  snapshot : t.snapshot = s.snapshot
  byteAt : ∀ a, t.byteAt a = s.byteAt a

section
variable {s t : State} (h : SameInputs s t)
include h

theorem SameInputs.checkInstr (i : Instr) : checkInstr i t = checkInstr i s := by
  simp only [Machine.checkInstr, check, h.snapshot, h.byteAt]

theorem SameInputs.readSrc (n : Nat) : t.readSrc n = s.readSrc n := by
  simp only [State.readSrc, State.readBytes, h.snapshot, h.byteAt]

theorem SameInputs.readKey (n : Nat) : t.readKey n = s.readKey n := by
  simp only [State.readKey, State.readBytes, h.snapshot, h.byteAt]

theorem SameInputs.toDst (bytes : List Byte) : Effect.toDst t bytes = Effect.toDst s bytes := by
  simp only [Effect.toDst, h.snapshot]

theorem SameInputs.effectOf (T : Tables) (i : Instr) : effectOf T i t = effectOf T i s := by
  cases i <;>
    simp only [Machine.effectOf, gfmulEffect, substEffect, rotrowEffect, shrowsEffect, mixcolEffect, addbEffect,
      addbtEffect, xkeycEffect, xkeyhEffect, xaeencrEffect, xaedecrEffect, xaeencEffect, xaedecEffect, xwhrndEffect,
      xwhcmpEffect, xwhhashEffect, h.toDst, h.readSrc, h.readKey, h.snapshot]

end

/-- A change of the state that no completion sees and that overwrites nothing a completion writes. -/
structure UnseenByCompletion (f : State → State) : Prop where
  inputs : ∀ s, SameInputs s (f s)
  completeError : ∀ s c, (f s).completeError c = f (s.completeError c)
  completeOk : ∀ s e, (f s).completeOk e = f (s.completeOk e)

/-- Such a change commutes with the completion. -/
theorem UnseenByCompletion.completion {f : State → State} (hf : UnseenByCompletion f) {s t : State}
    (h : completion s = .next t) : completion (f s) = .next (f t) := by
  have hcmd : decode (f s).snapshot.cmd = decode s.snapshot.cmd := by rw [(hf.inputs s).snapshot]
  cases hd : decode s.snapshot.cmd with
  | error d =>
    rw [completion_of_decode_error hd] at h
    injection h with h
    rw [completion_of_decode_error (hcmd.trans hd), hf.completeError, h]
  | ok i =>
    rw [completion_of_decode_ok hd, exec_eq] at h
    injection h with h
    rw [completion_of_decode_ok (hcmd.trans hd), exec_eq, (hf.inputs s).effectOf, ← h]
    cases hc : checkInstr i s with
    | some c =>
      rw [complete_of_error _ hc, complete_of_error _ (((hf.inputs s).checkInstr i).trans hc), hf.completeError]
    | none => rw [complete_of_ok _ hc, complete_of_ok _ (((hf.inputs s).checkInstr i).trans hc), hf.completeOk]

/-! ### Argument writes while a command runs -/

/-- A write that R249 speaks of: of an argument register, or of CTRL without the soft reset. -/
def ArgumentWrite (r : Reg) (v : Word) : Prop :=
  r ∈ [Reg.src, .dst, .len, .key, .klen, .opa, .opb] ∨ (r = .ctrl ∧ v.getLsbD 1 = false)

/-- The state after a write of a register that was the last move to come. -/
def State.afterLastWrite (r : Reg) (v : Word) (s : State) : State :=
  (State.writeReg { s with agenda := [] } r v).respond .okay

/-- What a register write does does not depend on the moves to come. -/
theorem writeReg_setAgenda (s : State) (r : Reg) (v : Word) (ms : List Move) :
    State.writeReg { s with agenda := ms } r v = { s.writeReg r v with agenda := ms } := by
  cases r with
  | cmd =>
    simp only [State.writeReg, State.writeCmd]
    split <;> rfl
  | ctrl =>
    simp only [State.writeReg, State.writeCtrl]
    split
    · exact resetAction_setAgenda s ms
    · rfl
  | _ => rfl

/-- No register shows the moves to come or the responses so far. -/
theorem State.readReg_ignores_host (s : State) (ms : List Move) (rs : List BusResponse) (r : Reg) :
    State.readReg { s with agenda := ms, responses := rs } r = s.readReg r := by
  cases r <;> rfl

/-- The engine's turn, at the head of the agenda, while BUSY = 1. -/
theorem step_of_engine_agenda {s : State} {rest : List Move} (h : s.agenda = .engine :: rest) (hb : s.busy = true) :
    step s = completion { s with agenda := rest } := by
  rw [step_of_engine_busy (nextMove_of_agenda h) hb, h, List.tail_cons]

section
variable {r : Reg} {v : Word} (hw : ArgumentWrite r v)
include hw

/-- Such a write takes effect on its register at once and leaves BUSY (R249). -/
theorem ArgumentWrite.takesEffect (s : State) :
    (r ≠ .ctrl → (s.writeReg r v).readReg r = v) ∧ (r = .ctrl → (s.writeReg r v).ie = v.getLsbD 0) ∧
      (s.writeReg r v).busy = s.busy := by
  rcases hw with hr | ⟨rfl, hv⟩
  · simp only [List.mem_cons, List.not_mem_nil, or_false] at hr
    rcases hr with rfl | rfl | rfl | rfl | rfl | rfl | rfl <;> exact ⟨fun _ => rfl, nofun, rfl⟩
  · rw [writeReg_ctrl_of_not_srst s hv]
    exact ⟨fun h => absurd rfl h, fun _ => rfl, rfl⟩

/-- The running command has its own copy of the arguments, so it does not see such a write (R39, R249). -/
theorem ArgumentWrite.unseen : UnseenByCompletion (State.afterLastWrite r v) := by
  rcases hw with hr | ⟨rfl, hv⟩
  · simp only [List.mem_cons, List.not_mem_nil, or_false] at hr
    rcases hr with rfl | rfl | rfl | rfl | rfl | rfl | rfl <;>
      exact ⟨fun _ => ⟨rfl, fun _ => rfl⟩, fun _ _ => rfl, fun _ _ => rfl⟩
  · have hwrite (s : State) : State.afterLastWrite .ctrl v s =
        State.respond { s with agenda := [], ie := v.getLsbD 0 } .okay := by
      rw [State.afterLastWrite, writeReg_ctrl_of_not_srst _ hv]
    rw [funext hwrite]
    exact ⟨fun _ => ⟨rfl, fun _ => rfl⟩, fun _ _ => rfl, fun _ _ => rfl⟩

end

theorem completion_sameBeside {s t : State} (h : completion s = .next t) : SameBeside s t := by
  rcases completion_next h with ⟨c, -, rfl⟩ | ⟨i, -, -, rfl⟩
  · exact completeError_sameBeside s _
  · exact completeOk_sameBeside s _

/-- Settles O45: the completion does not see the write, so it commutes with it. -/
theorem argumentWritesDoNotReachTheRunningCommand : Obligations.ArgumentWritesDoNotReachTheRunningCommand := by
  unfold Obligations.ArgumentWritesDoNotReachTheRunningCommand
  intro s r v w s1 s2 u1 u2 hb hw harg hs1 hs2 hu1 hu2
  have hwrite : ArgumentWrite r v := harg
  obtain ⟨hreg, hie, hbusy⟩ := hwrite.takesEffect s
  have hfirst : s1 = State.respond { s.writeReg r v with agenda := [.engine] } .okay := by
    rw [hw, step_of_reg_write rfl, writeReg_setAgenda s] at hs1
    injection hs1 with h
    exact h.symm
  have hb1 : s1.busy = true := by
    rw [hfirst]
    exact hbusy.trans hb
  have hcompletion : completion { s with agenda := [w] } = .next u1 :=
    (step_of_engine_agenda (s := { s with agenda := [.engine, w] }) rfl hb).symm.trans hu1
  have hwriteFirst : step s1 = .next (u1.afterLastWrite r v) :=
    calc step s1 = completion { s1 with agenda := [] } := step_of_engine_agenda (by rw [hfirst]; rfl) hb1
      _ = completion (s.afterLastWrite r v) := by
        rw [hfirst, State.afterLastWrite, writeReg_setAgenda s r v []]
        rfl
      _ = .next (u1.afterLastWrite r v) := hwrite.unseen.completion (s := { s with agenda := [w] }) hcompletion
  have hwriteLast : step u1 = .next (u1.afterLastWrite r v) := by
    have hagenda : u1.agenda = [w] := (completion_sameBeside hcompletion).agenda
    rw [hw] at hagenda
    exact step_of_reg_write hagenda
  refine ⟨fun hr => ?_, fun hr => ?_, hb1, ?_⟩
  · rw [hfirst]
    exact (State.readReg_ignores_host _ _ _ r).trans (hreg hr)
  · rw [hfirst]
    exact hie hr
  · injection hs2.symm.trans (hwriteFirst.trans (hwriteLast.symm.trans hu2))

end Sys2Proof.Machine
end
